-- ==== Sys2Proof/Word.lean ====
section
/-! DEFINITION. Bytes, 32-bit words and byte strings of a fixed length (the notation of 00_scope.md section 5). -/

namespace Sys2Proof

/-- A byte: 8 bits, unsigned. -/
abbrev Byte := BitVec 8

/-- A word: 32 bits, bit 0 the least significant. -/
abbrev Word := BitVec 32

/-- `Bytes(n)` of 00_scope.md section 5: a byte string of length exactly `n`, index 0 first. The length is part of
the type, so that strings of different lengths are never combined (rule R98, item I1). -/
structure Bytes (n : Nat) where
  /-- the bytes, index 0 first -/
  data : List Byte
  /-- there are exactly `n` of them -/
  len : data.length = n
  deriving DecidableEq, Repr

/-- `rep(v, n)`: `n` bytes each equal to `v`. -/
def Bytes.rep (v : Byte) (n : Nat) : Bytes n := ⟨List.replicate n v, List.length_replicate⟩

/-- `zeros(n)`: `n` bytes of 0x00. -/
def Bytes.zeros (n : Nat) : Bytes n := Bytes.rep 0#8 n

/-- `b[i]`, the byte at index `i`. -/
def Bytes.get {n : Nat} (b : Bytes n) (i : Fin n) : Byte := b.data[i.val]'(by rw [b.len]; exact i.isLt)

end Sys2Proof
end

