-- ==== Sys2Proof/Syntax.lean ====
section
/-! DEFINITION. The commands of spec/opcode_table.json, one constructor per row (rule R61). -/

namespace Sys2Proof

/-- A command of the engine. A command has no operand field: no bit of the command word is an operand (R63), and
every operand is implicit in the opcode (R64). -/
inductive Instr
  /-- NOP, opcode 0x0: complete at once with no effect on data (R119) -/
  | nop
  /-- DERIVE, opcode 0x1: derive key material from the secret (R90) -/
  | derive
  /-- ENCRYPT, opcode 0x2: encrypt BLOCK_IN into BLOCK_OUT (R108) -/
  | encrypt
  /-- DECRYPT, opcode 0x3: decrypt BLOCK_IN into BLOCK_OUT (R109) -/
  | decrypt
  /-- ZEROIZE, opcode 0x4: end the cipher instance and clear every data register (R120) -/
  | zeroize
  deriving DecidableEq, Repr

end Sys2Proof
end

