-- ==== Sys2Proof/WellFormed.lean ====
section
/-! DEFINITION. Well-formedness: of a command word (rule R60), and of an instruction. -/

namespace Sys2Proof

/-- The reserved bits `w[31:4]` are zero (R59, R60). -/
def reservedBitsZero (w : Word) : Bool := w.extractLsb' 4 28 == 0#28

/-- The opcode `w[3:0]` is one of 0x0 to 0x4 (R60). -/
def opcodeAssigned (w : Word) : Bool := w.extractLsb' 0 4 ≤ 4#4

/-- A legal command word (R60): both checks. -/
def legalWord (w : Word) : Bool := reservedBitsZero w && opcodeAssigned w

/-- A command carries no operand (R63), so every instruction is well-formed; the checks of this hardware are those of
the command word, `legalWord`. -/
def Instr.wellFormed : Instr → Bool
  | .nop => true
  | .derive => true
  | .encrypt => true
  | .decrypt => true
  | .zeroize => true

end Sys2Proof
end

