-- ==== Sys2Proof/Decode.lean ====
section
/-! DEFINITION. Decoding a command word (rules R59 to R62, R129) and, from the same table, encoding a command. -/

namespace Sys2Proof

/-- Why a word is no command; either makes it illegal (R62). -/
inductive Illegal
  /-- some bit of `w[31:4]` is 1 -/
  | reservedBits
  /-- `w[31:4] = 0` and `w[3:0]` is 0x5 to 0xF -/
  | opcode
  deriving DecidableEq, Repr

/-- The field OP, `w[3:0]` (R59). -/
def opField (w : Word) : BitVec 4 := w.extractLsb' 0 4

/-- The field RSVD, `w[31:4]` (R59). -/
def rsvdField (w : Word) : BitVec 28 := w.extractLsb' 4 28

/-- The opcode map (R61). -/
def ofOpcode (op : BitVec 4) : Option Instr :=
  match op.toNat with
  | 0 => some .nop
  | 1 => some .derive
  | 2 => some .encrypt
  | 3 => some .decrypt
  | 4 => some .zeroize
  | _ => none

/-- Decoding is total: every word is one of the five commands or illegal, by name (R60, R62). -/
def decode (w : Word) : Except Illegal Instr :=
  if rsvdField w = 0#28 then
    match ofOpcode (opField w) with
    | some i => .ok i
    | none => .error .opcode
  else .error .reservedBits

/-- The OP number of a command (R61). -/
def opcodeOf : Instr → BitVec 4
  | .nop => 0x0#4
  | .derive => 0x1#4
  | .encrypt => 0x2#4
  | .decrypt => 0x3#4
  | .zeroize => 0x4#4

/-- The one word of a command: RSVD = 0, then OP (R59, R60). -/
def encode (i : Instr) : Word := (0#28 : BitVec 28) ++ opcodeOf i

/-- What the decoder reads from an instruction whose `nbits` bits are `w`, bit 0 the least significant bit of the one
command word (R59); a command is one 32-bit word (R65), so more bits than that are no command. -/
def decodeTableWord (nbits w : Nat) : Option Instr :=
  if w % 2 ^ nbits < 2 ^ 32 then (decode (BitVec.ofNat 32 (w % 2 ^ nbits))).toOption else none

end Sys2Proof
end

