-- ==== Sys2Proof/Machine/Bytes.lean ====
section
/-! DEFINITION. Operations on byte strings (00_scope.md section 5, rule R97) and the byte orders of integers: big-endian
inside SHA-256 and the PBKDF2 block index (R48), little-endian on the bus (R47). -/

namespace Sys2Proof.Machine

/-- `xorBytes(a, b)` (R97), typed on strings of one length (R98, I1). -/
def xorBytes {n : Nat} (a b : Bytes n) : Bytes n :=
  ⟨List.zipWith (· ^^^ ·) a.data b.data, by rw [List.length_zipWith, a.len, b.len, Nat.min_self]⟩

/-- `a || b`: concatenation, `a` first. -/
def appendBytes {m n : Nat} (a : Bytes m) (b : Bytes n) : Bytes (m + n) :=
  ⟨a.data ++ b.data, by rw [List.length_append, a.len, b.len]⟩

/-- `b[at +: k]`: the `k` bytes from index `at`. -/
def sliceBytes {n : Nat} (b : Bytes n) (at_ k : Nat) (h : at_ + k ≤ n) : Bytes k :=
  ⟨(b.data.drop at_).take k, by rw [List.length_take, List.length_drop, b.len]; omega⟩

/-- `b[at +: k] <- v`: `b` with the `k` bytes from index `at` replaced by `v`. -/
def patchBytes {n k : Nat} (b : Bytes n) (at_ : Nat) (v : Bytes k) (h : at_ + k ≤ n) : Bytes n :=
  ⟨b.data.take at_ ++ v.data ++ b.data.drop (at_ + k), by
    rw [List.length_append, List.length_append, List.length_take, List.length_drop, b.len, v.len]; omega⟩

/-- `be32(x)`: most significant byte first. -/
def be32 (x : Word) : List Byte :=
  [x.extractLsb' 24 8, x.extractLsb' 16 8, x.extractLsb' 8 8, x.extractLsb' 0 8]

/-- `be64(x)`: most significant byte first. -/
def be64 (x : BitVec 64) : List Byte := be32 (x.extractLsb' 32 32) ++ be32 (x.extractLsb' 0 32)

/-- Four bytes as a word, most significant byte first (R76). -/
def wordBE (b0 b1 b2 b3 : Byte) : Word :=
  (b0.setWidth 32 <<< 24) ||| (b1.setWidth 32 <<< 16) ||| (b2.setWidth 32 <<< 8) ||| b3.setWidth 32

/-- `le32bytes(w)`: byte `k` is bits `8k+7 : 8k` (R47). -/
def le32bytes (w : Word) : Bytes 4 :=
  ⟨[w.extractLsb' 0 8, w.extractLsb' 8 8, w.extractLsb' 16 8, w.extractLsb' 24 8], rfl⟩

/-- `le32(b)`: the word whose bits `8k+7 : 8k` are byte `k` (R47). -/
def le32 (b : Bytes 4) : Word :=
  ((b.get 3).setWidth 32 <<< 24) ||| ((b.get 2).setWidth 32 <<< 16) ||| ((b.get 1).setWidth 32 <<< 8) |||
    (b.get 0).setWidth 32

end Sys2Proof.Machine
end

