-- ==== Sys2Proof/Config.lean ====
section
/-! DEFINITION. What is fixed for the machine: the named parameters of rule R11 (each defined once, D38), and the
values the spec leaves open, as constants with no body. -/

namespace Sys2Proof.Config

/-- `ROUNDS` (R3): Feistel rounds. -/
abbrev ROUNDS : Nat := 10

/-- `BLOCK` (R3): bytes of a block. -/
abbrev BLOCK : Nat := 64

/-- `HALF` (R3): bytes of half a block; it is `BLOCK / 2` (R4). -/
abbrev HALF : Nat := 32

/-- `ITER` (R5): PBKDF2 iterations. -/
abbrev ITER : Nat := 500

/-- `SALT` (R5, R86): the ASCII bytes of `Computerphile`, no terminator, no length prefix. -/
def SALT : List Byte :=
  [0x43#8, 0x6F#8, 0x6D#8, 0x70#8, 0x75#8, 0x74#8, 0x65#8, 0x72#8, 0x70#8, 0x68#8, 0x69#8, 0x6C#8, 0x65#8]

/-- `DKLEN` (R5): bytes of derived key material, `(ROUNDS + 4) * HALF`. -/
abbrev DKLEN : Nat := (ROUNDS + 4) * HALF

/-- `SECRET_MAX` (R11, D13): the longest secret, in bytes. -/
abbrev SECRET_MAX : Nat := 256

/-- Bytes of a SHA-256 digest and of a PRF output (R71, R84). -/
abbrev HLEN : Nat := 32

/-- The number `l = DKLEN / 32` of PBKDF2 output blocks (R85); nothing is truncated. -/
abbrev KS_BLOCKS : Nat := DKLEN / HLEN

/-- The page of `ENGINE_BASE`, the window's base address, which the platform chooses (D3, I11): a constant with no
body, so nothing can be proved of its value. -/
opaque enginePage : Nat

/-- `ENGINE_BASE` (R139): 4096-aligned. -/
def engineBase : Nat := 4096 * enginePage

/-- How many host steps come between two engine steps while a command is in progress and the schedule names no agent
(I9: any number; R156: a number, so the engine's step is taken eventually). A free value: a constant with no body,
applied to the counter `tick` of State. Log entry 2, DESIGN CHOICE. -/
opaque freeHostTurns : Nat → Nat

end Sys2Proof.Config
end

