-- ==== Sys2Proof/Machine/State.lean ====
section
/-! DEFINITION. The state of the engine (rule R38 of 10_state.md), what the other two agents hold, and the reasons a
step can stop. -/

namespace Sys2Proof.Machine

open Config

/-- The sequencer phase PHASE (R33). -/
inductive Phase
  | idle
  | derive
  | enc
  | dec
  deriving DecidableEq, Repr

/-- The 2-bit encoding of PHASE (R33); no bus read shows it. -/
def Phase.code : Phase → BitVec 2
  | .idle => 0#2
  | .derive => 1#2
  | .enc => 2#2
  | .dec => 3#2

/-- A host instruction (R67): a bus transaction of R66 (`WR off, w` is `write off 4 w`, `RD off` is `read off 4`), a
read with a check, or a poll. -/
inductive HostOp
  /-- `BusRead(off, size)`; the value is the program's observation -/
  | read (off : BitVec 12) (size : Nat)
  /-- `BusWrite(off, size, w)` -/
  | write (off : BitVec 12) (size : Nat) (w : Word)
  /-- `RD off, =v`: read, and assert that the value is `v` -/
  | check (off : BitVec 12) (v : Word)
  /-- `POLL off, mask, v`: repeat the read until `(value & mask) = v` -/
  | poll (off : BitVec 12) (mask v : Word)
  deriving DecidableEq, Repr

/-- Which agent takes a step: the host, the engine, or the environment asserting reset (R10, R143). -/
inductive Turn
  | host
  | engine
  | reset
  deriving DecidableEq, Repr

/-- Why the machine stops. Both stops are safe: the hardware goes on, and the model says nothing of what follows. -/
inductive Fault
  /-- a bus-error response to a host transaction at this offset (R127; a fault of the run, R158). Raised by a read or
  write of a size other than 4, unaligned or unmapped. Safe. -/
  | busError (off : BitVec 12)
  /-- the check of `RD off, =v` failed (a fault of the run, R158). Raised by the host's check alone. Safe. -/
  | checkFailed (off : BitVec 12)
  deriving DecidableEq, Repr

/-- Why an instruction has no meaning. -/
inductive Refusal
  /-- an instruction with no arm yet, by its mnemonic in spec/opcode_table.json. Safe. No arm uses it. -/
  | notModelled (mnemonic : String)
  deriving DecidableEq, Repr

/-- Every element of R38, then what the host and the environment hold (R10, R158). ID, PARAM0 and PARAM1 are constants
(R16 to R18), BUSY and irq are computed (R22, R36), CMD holds no state (R20). -/
structure State where
  /-- CTRL.IE (R19) -/
  ie : Bool
  /-- STATUS.DONE (R23) -/
  done : Bool
  /-- STATUS.KEY_VALID (R24) -/
  keyValid : Bool
  /-- STATUS.OVR (R25) -/
  ovr : Bool
  /-- STATUS.ERR (R26) -/
  err : BitVec 4
  /-- STATUS.LAST_OP (R26) -/
  lastOp : BitVec 4
  /-- SECRET_LEN.LEN (R27) -/
  secretLen : BitVec 16
  /-- BLOCK_LEN.LEN (R28) -/
  blockLen : BitVec 16
  /-- SECRET (R29) -/
  secret : Bytes SECRET_MAX
  /-- BLOCK_IN (R29) -/
  blockIn : Bytes BLOCK
  /-- BLOCK_OUT (R29) -/
  blockOut : Bytes BLOCK
  /-- KM (R30) -/
  km : Bytes DKLEN
  /-- PHASE (R33) -/
  phase : Phase
  /-- KS_K0 (R34): the HMAC key block -/
  ksK0 : Bytes BLOCK
  /-- KS_BLK (R34): the PBKDF2 output block, 1 to 14, 0 while PHASE is not DERIVE (log entry 8) -/
  ksBlk : Fin (KS_BLOCKS + 1)
  /-- KS_ITER (R34): the iteration the next step computes, 1 to 500, 0 while PHASE is not DERIVE (log entry 8) -/
  ksIter : Fin (ITER + 1)
  /-- KS_U (R34): the last PRF output -/
  ksU : Bytes HLEN
  /-- KS_T (R34): the running XOR -/
  ksT : Bytes HLEN
  /-- CI_W (R35): the working block -/
  ciW : Bytes BLOCK
  /-- CI_RND (R35): the index of the round key the next round step uses, 0 to 9 (log entry 8) -/
  ciRnd : Fin ROUNDS
  /-- the host: what it still has to execute (R67) -/
  program : List HostOp
  /-- the host: the values its reads returned, oldest first (R158) -/
  obs : List Word
  /-- the interleaving (R53): which agent takes the next steps, next first. Log entry 1, DESIGN CHOICE. -/
  sched : List Turn
  /-- the host steps taken, with no entry in `sched`, since the engine step before. Log entry 2, DESIGN CHOICE. -/
  waited : Nat
  /-- the counter of the free value `Config.freeHostTurns`. Log entry 2, DESIGN CHOICE. -/
  tick : Nat
  deriving DecidableEq, Repr

/-- The machine right after reset (R38, R144), with a host that has nothing to do. -/
def State.reset : State where
  ie := false
  done := false
  keyValid := false
  ovr := false
  err := 0#4
  lastOp := 0#4
  secretLen := 0#16
  blockLen := 0#16
  secret := Bytes.zeros SECRET_MAX
  blockIn := Bytes.zeros BLOCK
  blockOut := Bytes.zeros BLOCK
  km := Bytes.zeros DKLEN
  phase := .idle
  ksK0 := Bytes.zeros BLOCK
  ksBlk := 0
  ksIter := 0
  ksU := Bytes.zeros HLEN
  ksT := Bytes.zeros HLEN
  ciW := Bytes.zeros BLOCK
  ciRnd := 0
  program := []
  obs := []
  sched := []
  waited := 0
  tick := 0

end Sys2Proof.Machine
end

