-- ==== Sys2Proof/Machine/Operands.lean ====
section
/-! DEFINITION. The implicit operands of the commands (rule R64): the secret (R29) and the views of the key material
(R31). Each is a read of the state at the moment it is used; none is stored. -/

namespace Sys2Proof.Machine

open Config

/-- The secret, `SECRET[0 +: SECRET_LEN.LEN]` (R29, R90); bytes at index LEN and above are ignored. -/
def secretOperand (s : State) : List Byte := s.secret.data.take s.secretLen.toNat

/-- `prekey = KM[0 +: 64]` (R31). -/
def prekey (km : Bytes DKLEN) : Bytes BLOCK := sliceBytes km 0 BLOCK (by decide)

/-- `roundKey(i) = KM[64 + 32*i +: 32]`, formed for 0 <= i < ROUNDS only (R31). -/
def roundKey (km : Bytes DKLEN) (i : Fin ROUNDS) : Bytes HALF :=
  sliceBytes km (BLOCK + HALF * i.val) HALF (by have := i.isLt; simp only [BLOCK, HALF, DKLEN, ROUNDS] at *; omega)

/-- `postkey = KM[448 - 64 +: 64]` (R31). -/
def postkey (km : Bytes DKLEN) : Bytes BLOCK := sliceBytes km (DKLEN - BLOCK) BLOCK (by decide)

end Sys2Proof.Machine
end

