-- ==== Sys2Proof/Machine/Flags.lean ====
section
/-! DEFINITION. STATUS, CTRL and irq: the words a read returns (rules R19, R21, R41), the write-one-to-clear bits (R42),
BUSY (R22) and the interrupt line (R133), and the completion codes (R126). -/

namespace Sys2Proof.Machine

/-- The completion codes of R126; 5 to 15 are reserved and never produced. -/
inductive Code
  | none
  | invalidBlockSize
  | invalidSecret
  | noKey
  | illegalCommand
  deriving DecidableEq, Repr

/-- The number of a completion code in STATUS.ERR (R126). -/
def codeBits : Code → BitVec 4
  | .none => 0#4
  | .invalidBlockSize => 1#4
  | .invalidSecret => 2#4
  | .noKey => 3#4
  | .illegalCommand => 4#4

/-- STATUS.BUSY (R22): PHASE is not IDLE. -/
def busy (s : State) : Bool := s.phase != .idle

/-- irq (R133): `STATUS.DONE & CTRL.IE`. -/
def irq (s : State) : Bool := s.done && s.ie

/-- `zext_32` of one bit. -/
def bitWord (b : Bool) : Word := (BitVec.ofBool b).setWidth 32

/-- The word a read of STATUS returns (R21, R41); bits 7:4 and 31:16 read 0. -/
def statusWord (s : State) : Word :=
  bitWord (busy s) ||| (bitWord s.done <<< 1) ||| (bitWord s.keyValid <<< 2) ||| (bitWord s.ovr <<< 3) |||
    (s.err.setWidth 32 <<< 8) ||| (s.lastOp.setWidth 32 <<< 12)

/-- A write of STATUS (R42): bit 1 clears DONE, bit 3 clears OVR, every other bit is ignored. -/
def writeStatus (w : Word) (s : State) : State :=
  { s with done := s.done && !w.getLsbD 1, ovr := s.ovr && !w.getLsbD 3 }

/-- A write of CTRL (R19, R42): bit 0 is IE, bits 31:1 are ignored. -/
def writeCtrl (w : Word) (s : State) : State := { s with ie := w.getLsbD 0 }

end Sys2Proof.Machine
end

