-- ==== Sys2Proof/Machine/Ops.lean ====
section
/-! DEFINITION. The shared operations: completion (rule R130), the drop of a write while busy (R49), the acceptance of a
command (R129), reset (R142). The hardware has no traps (R125), so there is no exception entry and no return from
one: completion is how every command ends. -/

namespace Sys2Proof.Machine

open Config

/-- What a meaning answers. -/
abbrev Result := Host.Outcome State Fault Refusal

/-- `complete(code)` (R130): record the code, set DONE, return to IDLE and clear the internal elements (R37). -/
def complete (c : Code) (s : State) : State :=
  { s with
    err := codeBits c
    done := true
    phase := .idle
    ksK0 := Bytes.zeros BLOCK
    ksBlk := 0
    ksIter := 0
    ksU := Bytes.zeros HLEN
    ksT := Bytes.zeros HLEN
    ciW := Bytes.zeros BLOCK
    ciRnd := 0 }

/-- What a write dropped because the engine is busy does: set OVR, nothing else (R49, R128). -/
def dropWrite (s : State) : State := { s with ovr := true }

/-- A write that is dropped while the engine is busy (R49) and otherwise does `f`. -/
def unlessBusy (f : State → State) (s : State) : State := if busy s then dropWrite s else f s

/-- The start of a long command's acceptance (R90, R108, R109): ERR and DONE cleared, the phase entered. -/
def startLong (p : Phase) (s : State) : State := { s with err := 0#4, done := false, phase := p }

/-- A CMD write that issues a command with `LAST_OP` value `op` and acceptance arm `arm` (R20, R129): dropped while
busy (R49); otherwise LAST_OP is recorded and the arm runs, within the write. -/
def issueCommand (op : BitVec 4) (arm : State → State) (s : State) : Result :=
  .next (unlessBusy (fun s => arm { s with lastOp := op }) s)

/-- Reset (R142): every element to its value of R38, whatever the engine is doing. What the host and the schedule hold
is not the hardware's and stays (log entry 3). -/
def assertReset (s : State) : State :=
  { State.reset with
    program := s.program, obs := s.obs, sched := s.sched, waited := s.waited, tick := s.tick }

end Sys2Proof.Machine
end

