-- ==== Sys2Proof/Machine/Sha256.lean ====
section
/-! DEFINITION. SHA-256 (rules R71 to R79 of 40_key_schedule.md), defined once for both of its uses (R79). -/

namespace Sys2Proof.Machine

/-- `ROTR(w, n)`, for 0 < n < 32 (00_scope.md section 5). -/
def rotr (w : Word) (n : Nat) : Word := (w >>> n) ||| (w <<< (32 - n))

/-- `Ch` (R75). -/
def ch (x y z : Word) : Word := (x &&& y) ^^^ (~~~x &&& z)

/-- `Maj` (R75). -/
def maj (x y z : Word) : Word := (x &&& y) ^^^ (x &&& z) ^^^ (y &&& z)

/-- `Sigma0` (R75). -/
def bigSigma0 (x : Word) : Word := rotr x 2 ^^^ rotr x 13 ^^^ rotr x 22

/-- `Sigma1` (R75). -/
def bigSigma1 (x : Word) : Word := rotr x 6 ^^^ rotr x 11 ^^^ rotr x 25

/-- `sigma0` (R75). -/
def smallSigma0 (x : Word) : Word := rotr x 7 ^^^ rotr x 18 ^^^ (x >>> 3)

/-- `sigma1` (R75). -/
def smallSigma1 (x : Word) : Word := rotr x 17 ^^^ rotr x 19 ^^^ (x >>> 10)

/-- Eight words: a hash state `(H0, ..., H7)`, or the working variables `(a, ..., h)` of R77. -/
structure HashState where
  a : Word
  b : Word
  c : Word
  d : Word
  e : Word
  f : Word
  g : Word
  h : Word
  deriving DecidableEq, Repr

/-- The initial hash value `H(0)` (R73). -/
def initialHash : HashState :=
  ⟨0x6a09e667#32, 0xbb67ae85#32, 0x3c6ef372#32, 0xa54ff53a#32, 0x510e527f#32, 0x9b05688c#32, 0x1f83d9ab#32, 0x5be0cd19#32⟩

/-- The round constants `K[0..63]` (R74), eight per line. -/
def roundConstants : List Word :=
  [0x428a2f98#32, 0x71374491#32, 0xb5c0fbcf#32, 0xe9b5dba5#32, 0x3956c25b#32, 0x59f111f1#32, 0x923f82a4#32, 0xab1c5ed5#32] ++
  [0xd807aa98#32, 0x12835b01#32, 0x243185be#32, 0x550c7dc3#32, 0x72be5d74#32, 0x80deb1fe#32, 0x9bdc06a7#32, 0xc19bf174#32] ++
  [0xe49b69c1#32, 0xefbe4786#32, 0x0fc19dc6#32, 0x240ca1cc#32, 0x2de92c6f#32, 0x4a7484aa#32, 0x5cb0a9dc#32, 0x76f988da#32] ++
  [0x983e5152#32, 0xa831c66d#32, 0xb00327c8#32, 0xbf597fc7#32, 0xc6e00bf3#32, 0xd5a79147#32, 0x06ca6351#32, 0x14292967#32] ++
  [0x27b70a85#32, 0x2e1b2138#32, 0x4d2c6dfc#32, 0x53380d13#32, 0x650a7354#32, 0x766a0abb#32, 0x81c2c92e#32, 0x92722c85#32] ++
  [0xa2bfe8a1#32, 0xa81a664b#32, 0xc24b8b70#32, 0xc76c51a3#32, 0xd192e819#32, 0xd6990624#32, 0xf40e3585#32, 0x106aa070#32] ++
  [0x19a4c116#32, 0x1e376c08#32, 0x2748774c#32, 0x34b0bcb5#32, 0x391c0cb3#32, 0x4ed8aa4a#32, 0x5b9cca4f#32, 0x682e6ff3#32] ++
  [0x748f82ee#32, 0x78a5636f#32, 0x84c87814#32, 0x8cc70208#32, 0x90befffa#32, 0xa4506ceb#32, 0xbef9a3f7#32, 0xc67178f2#32]

/-- The bytes of a block four at a time, big-endian (R76). -/
def wordsBE : List Byte → List Word
  | b0 :: b1 :: b2 :: b3 :: rest => wordBE b0 b1 b2 b3 :: wordsBE rest
  | _ => []

/-- Extend a message schedule held newest first by `k` words: `W[t]` from `W[t-2]`, `W[t-7]`, `W[t-15]`, `W[t-16]`
(R76). -/
def extendSchedule : Nat → List Word → List Word
  | 0, ws => ws
  | k + 1, ws =>
    extendSchedule k ((smallSigma1 (ws.getD 1 0#32) + ws.getD 6 0#32 + smallSigma0 (ws.getD 14 0#32) + ws.getD 15 0#32) :: ws)

/-- The message schedule `W[0..63]` of a 64-byte block (R76). -/
def messageSchedule (block : List Byte) : List Word := (extendSchedule 48 (wordsBE block).reverse).reverse

/-- One of the 64 rounds of R77, with `K[t]` and `W[t]`. -/
def shaRound (v : HashState) (kw : Word × Word) : HashState :=
  let t1 := v.h + bigSigma1 v.e + ch v.e v.f v.g + kw.1 + kw.2
  let t2 := bigSigma0 v.a + maj v.a v.b v.c
  ⟨t1 + t2, v.a, v.b, v.c, v.d + t1, v.e, v.f, v.g⟩

/-- `Compress(H, B)` (R77). -/
def compress (hs : HashState) (block : List Byte) : HashState :=
  let v := (roundConstants.zip (messageSchedule block)).foldl shaRound hs
  ⟨hs.a + v.a, hs.b + v.b, hs.c + v.c, hs.d + v.d, hs.e + v.e, hs.f + v.f, hs.g + v.g, hs.h + v.h⟩

/-- Compress `k` 64-byte blocks in order (R71). -/
def compressBlocks : Nat → HashState → List Byte → HashState
  | 0, hs, _ => hs
  | k + 1, hs, bs => compressBlocks k (compress hs (bs.take 64)) (bs.drop 64)

/-- The number of padding zeros for a message of `n` bytes: `(55 - n) mod 64` (R72). -/
def padZeros (n : Nat) : Nat := (119 - n % 64) % 64

/-- The padded message `M || 0x80 || zeros(k) || be64(8*n)` (R72). -/
def padMessage (m : List Byte) : List Byte :=
  m ++ 0x80#8 :: (List.replicate (padZeros m.length) 0#8 ++ be64 (BitVec.ofNat 64 (8 * m.length)))

/-- `be32(H0) || ... || be32(H7)` (R78). -/
def digestBytes (hs : HashState) : Bytes 32 :=
  ⟨be32 hs.a ++ be32 hs.b ++ be32 hs.c ++ be32 hs.d ++ be32 hs.e ++ be32 hs.f ++ be32 hs.g ++ be32 hs.h, rfl⟩

/-- `SHA256(M)` (R71). -/
def sha256 (m : List Byte) : Bytes 32 :=
  let padded := padMessage m
  digestBytes (compressBlocks (padded.length / 64) initialHash padded)

end Sys2Proof.Machine
end

