-- ==== Sys2Proof/Machine/Cipher.lean ====
section
/-! DEFINITION. The block cipher core: the round function (rules R99 to R104), the cipher functions (R105, R106), ENCRYPT
and DECRYPT (R108, R109) and their controllers (R111 to R114). -/

namespace Sys2Proof.Machine

open Config

/-- `L` of `split(block)` (R99): the first 32 bytes. -/
def leftHalf (b : Bytes BLOCK) : Bytes HALF := sliceBytes b 0 HALF (by decide)

/-- `R` of `split(block)` (R99): the last 32 bytes. -/
def rightHalf (b : Bytes BLOCK) : Bytes HALF := sliceBytes b HALF HALF (by decide)

/-- `L || R`: a block from its halves. -/
def joinHalves (l r : Bytes HALF) : Bytes BLOCK := appendBytes l r

/-- `swapHalves(block) = R || L` (R100). -/
def swapHalves (b : Bytes BLOCK) : Bytes BLOCK := joinHalves (rightHalf b) (leftHalf b)

/-- `round(block, k)` (R101 to R104): `R || xorBytes(L, SHA256(xorBytes(R, k)))`. -/
def cipherRound (b : Bytes BLOCK) (k : Bytes HALF) : Bytes BLOCK :=
  joinHalves (rightHalf b) (xorBytes (leftHalf b) (sha256 (xorBytes (rightHalf b) k).data))

/-- `roundKey(0), ..., roundKey(9)`, ascending (R105). -/
def roundKeys (km : Bytes DKLEN) : List (Bytes HALF) := (List.finRange ROUNDS).map (roundKey km)

/-- Steps 1 and 2 of R105: pre-whitening, then the rounds ascending. -/
def encryptRounds (km : Bytes DKLEN) (p : Bytes BLOCK) : Bytes BLOCK :=
  (roundKeys km).foldl cipherRound (xorBytes p (prekey km))

/-- `encrypt(KM, p)` (R105). -/
def encryptBlock (km : Bytes DKLEN) (p : Bytes BLOCK) : Bytes BLOCK :=
  xorBytes (swapHalves (encryptRounds km p)) (postkey km)

/-- Steps 1 and 2 of R106: re-whitening with postkey, then the rounds descending. -/
def decryptRounds (km : Bytes DKLEN) (c : Bytes BLOCK) : Bytes BLOCK :=
  (roundKeys km).reverse.foldl cipherRound (xorBytes c (postkey km))

/-- `decrypt(KM, c)` (R106). -/
def decryptBlock (km : Bytes DKLEN) (c : Bytes BLOCK) : Bytes BLOCK :=
  xorBytes (swapHalves (decryptRounds km c)) (prekey km)

/-- `AcceptEncrypt` (R108): NoKey before InvalidBlockSize (R131), then pre-whitening. -/
def acceptEncrypt (s : State) : State :=
  if s.keyValid = false then complete .noKey s
  else if s.blockLen.toNat ≠ BLOCK then complete .invalidBlockSize s
  else { startLong .enc s with ciW := xorBytes s.blockIn (prekey s.km), ciRnd := 0 }

/-- ENCRYPT (R108), issued. -/
def execEncrypt (s : State) : Result := issueCommand 0x2#4 acceptEncrypt s

/-- `AcceptDecrypt` (R109). -/
def acceptDecrypt (s : State) : State :=
  if s.keyValid = false then complete .noKey s
  else if s.blockLen.toNat ≠ BLOCK then complete .invalidBlockSize s
  else { startLong .dec s with ciW := xorBytes s.blockIn (postkey s.km), ciRnd := 9 }

/-- DECRYPT (R109), issued. -/
def execDecrypt (s : State) : Result := issueCommand 0x3#4 acceptDecrypt s

/-- The round of the step: `round(CI_W, roundKey(CI_RND))`, KM read at the step (R102, R111, R113). -/
def stepRound (s : State) : Bytes BLOCK := cipherRound s.ciW (roundKey s.km s.ciRnd)

/-- `EncFinish(w)` (R112). -/
def encFinish (w : Bytes BLOCK) (s : State) : State :=
  complete .none { s with blockOut := xorBytes (swapHalves w) (postkey s.km) }

/-- `EncStep` (R111): rounds ascending. -/
def encStep (s : State) : State :=
  if h : s.ciRnd.val < ROUNDS - 1 then { s with ciW := stepRound s, ciRnd := ⟨s.ciRnd.val + 1, by omega⟩ }
  else encFinish (stepRound s) s

/-- `DecFinish(w)` (R114). -/
def decFinish (w : Bytes BLOCK) (s : State) : State :=
  complete .none { s with blockOut := xorBytes (swapHalves w) (prekey s.km) }

/-- `DecStep` (R113): the same round function, rounds descending. -/
def decStep (s : State) : State :=
  if 0 < s.ciRnd.val then
    { s with ciW := stepRound s, ciRnd := ⟨s.ciRnd.val - 1, Nat.lt_of_le_of_lt (Nat.sub_le _ _) s.ciRnd.isLt⟩ }
  else decFinish (stepRound s) s

end Sys2Proof.Machine
end

