-- ==== Sys2Proof/Machine/Control.lean ====
section
/-! DEFINITION. The control commands NOP (rule R119) and ZEROIZE (rule R120), and an illegal word (rule R62). -/

namespace Sys2Proof.Machine

open Config

/-- `AcceptNop` (R119). -/
def acceptNop (s : State) : State := complete .none s

/-- NOP (R119), issued. -/
def execNop (s : State) : Result := issueCommand 0x0#4 acceptNop s

/-- `AcceptZeroize` (R120). -/
def acceptZeroize (s : State) : State :=
  complete .none
    { s with
      km := Bytes.zeros DKLEN
      keyValid := false
      secret := Bytes.zeros SECRET_MAX
      secretLen := 0#16
      blockIn := Bytes.zeros BLOCK
      blockLen := 0#16
      blockOut := Bytes.zeros BLOCK }

/-- ZEROIZE (R120), issued. -/
def execZeroize (s : State) : Result := issueCommand 0x4#4 acceptZeroize s

/-- An illegal word, issued (R62, R129): LAST_OP 0xF and code IllegalCommand. -/
def issueIllegal (s : State) : Result := issueCommand 0xF#4 (complete .illegalCommand) s

end Sys2Proof.Machine
end

