-- ==== Sys2Proof/Machine/Pbkdf2.lean ====
section
/-! DEFINITION. HMAC-SHA256 (rules R80 to R82), PBKDF2 (rules R84 to R86) and the derivation function (rule R87). -/

namespace Sys2Proof.Machine

open Config

/-- `hkey(K)` (R80): the HMAC key block; a key longer than 64 bytes is hashed, a shorter one zero-padded. -/
def hkey (k : List Byte) : Bytes BLOCK :=
  if h : k.length ≤ BLOCK then
    ⟨k ++ List.replicate (BLOCK - k.length) 0#8, by
      rw [List.length_append, List.length_replicate]; exact Nat.add_sub_cancel' h⟩
  else appendBytes (sha256 k) (Bytes.zeros 32)

/-- `ipad` (R81). -/
def ipad : Bytes BLOCK := Bytes.rep 0x36#8 BLOCK

/-- `opad` (R81). -/
def opad : Bytes BLOCK := Bytes.rep 0x5C#8 BLOCK

/-- `HMAC_K0(K0, m)` (R82). -/
def hmacK0 (k0 : Bytes BLOCK) (m : List Byte) : Bytes HLEN :=
  sha256 ((xorBytes k0 opad).data ++ (sha256 ((xorBytes k0 ipad).data ++ m)).data)

/-- `HMAC(K, m)` (R82): the PRF of PBKDF2 (R84). -/
def hmac (k m : List Byte) : Bytes HLEN := hmacK0 (hkey k) m

/-- `U_1` of output block `i` (R84): the block index is 4 bytes, big-endian. -/
def prfFirst (p salt : List Byte) (i : Nat) : Bytes HLEN := hmac p (salt ++ be32 (BitVec.ofNat 32 i))

/-- `U_(k+1)` and `U_1 ^ ... ^ U_(k+1)` of output block `i` (R84): the PRF output after `k + 1` iterations and the
running XOR. -/
def prfPair (p salt : List Byte) (i : Nat) : Nat → Bytes HLEN × Bytes HLEN
  | 0 => (prfFirst p salt i, prfFirst p salt i)
  | k + 1 =>
    let r := prfPair p salt i k
    let u := hmac p r.1.data
    (u, xorBytes r.2 u)

/-- `T_i` (R84), for an iteration count `c >= 1`. -/
def pbkdf2Block (p salt : List Byte) (c i : Nat) : Bytes HLEN := (prfPair p salt i (c - 1)).2

/-- `T_1 || ... || T_l` (R84). -/
def pbkdf2Blocks (p salt : List Byte) (c : Nat) : Nat → List Byte
  | 0 => []
  | l + 1 => pbkdf2Blocks p salt c l ++ (pbkdf2Block p salt c (l + 1)).data

theorem length_pbkdf2Blocks (p salt : List Byte) (c l : Nat) : (pbkdf2Blocks p salt c l).length = 32 * l := by
  induction l with
  | zero => rfl
  | succ l ih => rw [pbkdf2Blocks, List.length_append, ih, (pbkdf2Block p salt c (l + 1)).len, Nat.mul_succ]

/-- `PBKDF2(P, S, c, dkLen)` (R84): `ceil(dkLen / 32)` blocks, cut to `dkLen` bytes. -/
def pbkdf2 (p salt : List Byte) (c dkLen : Nat) : Bytes dkLen :=
  ⟨(pbkdf2Blocks p salt c ((dkLen + 31) / 32)).take dkLen, by
    rw [List.length_take, length_pbkdf2Blocks]; omega⟩

/-- `derive(secret)` (R87). -/
def deriveKey (secret : List Byte) : Bytes DKLEN := pbkdf2 secret SALT ITER DKLEN

end Sys2Proof.Machine
end

