-- ==== Sys2Proof/Machine/KeySchedule.lean ====
section
/-! DEFINITION. DERIVE: its acceptance (rule R90), its engine step (R92) and its completion (R93). -/

namespace Sys2Proof.Machine

open Config

/-- `AcceptDerive` (R90). -/
def acceptDerive (s : State) : State :=
  if SECRET_MAX < s.secretLen.toNat then complete .invalidSecret s
  else
    { startLong .derive s with
      keyValid := false
      ksK0 := hkey (secretOperand s)
      ksBlk := 1
      ksIter := 1
      ksU := Bytes.zeros HLEN
      ksT := Bytes.zeros HLEN }

/-- DERIVE (R90), issued. -/
def execDerive (s : State) : Result := issueCommand 0x1#4 acceptDerive s

/-- `DeriveComplete` (R93). -/
def deriveComplete (s : State) : State :=
  complete .none { s with keyValid := true, secret := Bytes.zeros SECRET_MAX, secretLen := 0#16 }

/-- The PRF output `u` of the step (R92): `U_1` of block `KS_BLK` in iteration 1, `U_j` from `KS_U` after it. -/
def deriveU (s : State) : Bytes HLEN :=
  if s.ksIter.val = 1 then hmacK0 s.ksK0 (SALT ++ be32 (BitVec.ofNat 32 s.ksBlk.val)) else hmacK0 s.ksK0 s.ksU.data

/-- The running XOR `t` of the step (R92). -/
def deriveT (s : State) : Bytes HLEN := if s.ksIter.val = 1 then deriveU s else xorBytes s.ksT (deriveU s)

/-- KM with `T_i` of block `KS_BLK` written, `KM[32*(i-1) +: 32] <- t` (R92). -/
def deriveKm (s : State) : Bytes DKLEN :=
  patchBytes s.km (32 * (s.ksBlk.val - 1)) (deriveT s) (by
    have := s.ksBlk.isLt; simp only [KS_BLOCKS, DKLEN, ROUNDS, HALF, HLEN] at *; omega)

/-- `DeriveStep` (R92): one PRF evaluation, then the iteration counter, the block counter, or completion. -/
def deriveStep (s : State) : State :=
  if h : s.ksIter.val < ITER then
    { s with ksU := deriveU s, ksT := deriveT s, ksIter := ⟨s.ksIter.val + 1, by omega⟩ }
  else if h : s.ksBlk.val < KS_BLOCKS then
    { s with
      km := deriveKm s
      ksBlk := ⟨s.ksBlk.val + 1, by omega⟩
      ksIter := 1
      ksU := Bytes.zeros HLEN
      ksT := Bytes.zeros HLEN }
  else deriveComplete { s with km := deriveKm s }

end Sys2Proof.Machine
end

