-- ==== Sys2Proof/Machine/Bus.lean ====
section
/-! DEFINITION. The register window (rule R15) and the host's bus transactions: `BusRead` (R41), `BusWrite` (R42) and the
acceptance of a command word (R129). -/

namespace Sys2Proof.Machine

open Config

/-- A register of the window, a buffer word by its index (R15). -/
inductive Reg
  | id
  | param0
  | param1
  | ctrl
  | cmd
  | status
  | secretLen
  | blockLen
  | secret (k : Fin 64)
  | blockIn (k : Fin 16)
  | blockOut (k : Fin 16)
  deriving DecidableEq, Repr

/-- The control registers, by the index of their word in the window (R15); word 3 (offset 0x00C) is unmapped. -/
def controlReg (n : Nat) : Option Reg :=
  match n with
  | 0 => some .id
  | 1 => some .param0
  | 2 => some .param1
  | 4 => some .ctrl
  | 5 => some .cmd
  | 6 => some .status
  | 7 => some .secretLen
  | 8 => some .blockLen
  | _ => none

/-- The register in word `n` of the window, offset `4n` (R15): SECRET from 0x100, BLOCK_IN from 0x200, BLOCK_OUT from
0x240; `none` where `mapped` fails (R41, R45). -/
def regOfWord (n : Nat) : Option Reg :=
  if h : 64 ≤ n ∧ n < 128 then some (.secret ⟨n - 64, by omega⟩)
  else if h : 128 ≤ n ∧ n < 144 then some (.blockIn ⟨n - 128, by omega⟩)
  else if h : 144 ≤ n ∧ n < 160 then some (.blockOut ⟨n - 144, by omega⟩)
  else controlReg n

/-- The register a legal access reaches: size 4, 4-aligned, mapped (R41 to R45). -/
def accessReg (off : BitVec 12) (size : Nat) : Option Reg :=
  if size = 4 ∧ off.toNat % 4 = 0 then regOfWord (off.toNat / 4) else none

/-- ID (R16). -/
def idWord : Word := 0x46504B31#32

/-- PARAM0 (R17): ROUNDS, HALF, BLOCK and the salt's length, a byte each from bit 0 up. -/
def param0Word : Word := 0x0D40200A#32

/-- PARAM1 (R18): ITER in bits 15:0, SECRET_MAX in bits 31:16. -/
def param1Word : Word := 0x010001F4#32

theorem block_word_fits (k : Fin 16) : 4 * k.val + 4 ≤ BLOCK := by show _ ≤ 64; omega

theorem secret_word_fits (k : Fin 64) : 4 * k.val + 4 ≤ SECRET_MAX := by show _ ≤ 256; omega

/-- The word a read of a register returns (R41); CMD and SECRET are write-only and read 0 (R46). -/
def readReg (r : Reg) (s : State) : Word :=
  match r with
  | .id => idWord
  | .param0 => param0Word
  | .param1 => param1Word
  | .ctrl => bitWord s.ie
  | .cmd => 0#32
  | .status => statusWord s
  | .secretLen => s.secretLen.setWidth 32
  | .blockLen => s.blockLen.setWidth 32
  | .secret _ => 0#32
  | .blockIn k => le32 (sliceBytes s.blockIn (4 * k.val) 4 (block_word_fits k))
  | .blockOut k => le32 (sliceBytes s.blockOut (4 * k.val) 4 (block_word_fits k))

/-- `Accept(w)` with the busy check of R42 (R20, R129): a legal word issues its command, any other is IllegalCommand. -/
def issueWord (w : Word) (s : State) : Result :=
  match decode w with
  | .ok i => exec i s
  | .error _ => issueIllegal s

/-- SECRET_LEN.LEN <- w[15:0] (R27). -/
def storeSecretLen (w : Word) (s : State) : State := { s with secretLen := w.extractLsb' 0 16 }

/-- BLOCK_LEN.LEN <- w[15:0] (R28). -/
def storeBlockLen (w : Word) (s : State) : State := { s with blockLen := w.extractLsb' 0 16 }

/-- SECRET[4k +: 4] <- le32bytes(w) (R42, R47). -/
def storeSecret (k : Fin 64) (w : Word) (s : State) : State :=
  { s with secret := patchBytes s.secret (4 * k.val) (le32bytes w) (secret_word_fits k) }

/-- BLOCK_IN[4k +: 4] <- le32bytes(w) (R42, R47). -/
def storeBlockIn (k : Fin 16) (w : Word) (s : State) : State :=
  { s with blockIn := patchBytes s.blockIn (4 * k.val) (le32bytes w) (block_word_fits k) }

/-- A write of a register (R42): read-only registers ignore it (R46), CTRL and STATUS honour it while busy, the others
drop it while busy (R49). -/
def writeReg (r : Reg) (w : Word) (s : State) : Result :=
  match r with
  | .id | .param0 | .param1 | .blockOut _ => .next s
  | .ctrl => .next (writeCtrl w s)
  | .status => .next (writeStatus w s)
  | .cmd => issueWord w s
  | .secretLen => .next (unlessBusy (storeSecretLen w) s)
  | .blockLen => .next (unlessBusy (storeBlockLen w) s)
  | .secret k => .next (unlessBusy (storeSecret k w) s)
  | .blockIn k => .next (unlessBusy (storeBlockIn k w) s)

/-- `BusRead(off, size)` (R41): the word, or `none` for a bus-error response (R127). -/
def busRead (off : BitVec 12) (size : Nat) (s : State) : Option Word := (accessReg off size).map (readReg · s)

/-- `BusWrite(off, size, w)` (R42); a bus-error response is a fault of the transaction (R127). -/
def busWrite (off : BitVec 12) (size : Nat) (w : Word) (s : State) : Result :=
  match accessReg off size with
  | some r => writeReg r w s
  | none => .fault (.busError off)

/-- The host address of a window offset (R139, D3). -/
def hostAddress (off : BitVec 12) : Nat := engineBase + off.toNat

/-- The window offset a host address reaches; an address outside the window does not reach the engine (R45). -/
def windowOffset (a : Nat) : Option (BitVec 12) :=
  if engineBase ≤ a ∧ a < engineBase + 4096 then some (BitVec.ofNat 12 (a - engineBase)) else none

end Sys2Proof.Machine
end

