-- ==== Sys2Proof/Machine/Agents.lean ====
section
/-! DEFINITION. The agents of rule R10: a step of the engine (R33), of the host (R67) and of the environment (R143), and
which of them moves next (R53). -/

namespace Sys2Proof.Machine

/-- One engine step (R33): by phase; while IDLE the engine takes no step. -/
def engineStep (s : State) : State :=
  match s.phase with
  | .idle => s
  | .derive => deriveStep s
  | .enc => encStep s
  | .dec => decStep s

/-- A value read by the host joins its observation (R158). -/
def observe (v : Word) (s : State) : State := { s with obs := s.obs ++ [v] }

/-- The host instruction at the head of the program, `rest` following it (R67). A POLL whose condition does not hold
stays at the head. -/
def runHostOp (op : HostOp) (rest : List HostOp) (s : State) : Result :=
  match op with
  | .write off size w => busWrite off size w { s with program := rest }
  | .read off size =>
    match busRead off size s with
    | some v => .next (observe v { s with program := rest })
    | none => .fault (.busError off)
  | .check off v =>
    match busRead off 4 s with
    | some x => if x = v then .next (observe x { s with program := rest }) else .fault (.checkFailed off)
    | none => .fault (.busError off)
  | .poll off mask v =>
    match busRead off 4 s with
    | some x => .next (observe x (if x &&& mask = v then { s with program := rest } else s))
    | none => .fault (.busError off)

/-- One host step: its next instruction; a host with nothing left takes no step. -/
def hostStep (s : State) : Result :=
  match s.program with
  | [] => .next s
  | op :: rest => runHostOp op rest s

/-- Which agent moves, and the state with that choice consumed: the schedule's next entry; with no entry, the only
enabled agent, or, where both are enabled, the host for a free but finite number of steps and then the engine (R10, I9,
and the weak fairness of R156; log entries 1 and 2). -/
def chooseTurn (s : State) : Turn × State :=
  match s.sched with
  | t :: rest => (t, { s with sched := rest })
  | [] =>
    match s.program, busy s with
    | [], _ => (.engine, s)
    | _ :: _, false => (.host, s)
    | _ :: _, true =>
      if s.waited < Config.freeHostTurns s.tick then (.host, { s with waited := s.waited + 1 })
      else (.engine, { s with waited := 0, tick := s.tick + 1 })

/-- A step of the chosen agent. -/
def takeTurn (t : Turn) (s : State) : Result :=
  match t with
  | .host => hostStep s
  | .engine => .next (engineStep s)
  | .reset => .next (assertReset s)

end Sys2Proof.Machine
end

