-- ==== Sys2Proof/Machine/Asm.lean ====
section
/-! DEFINITION. The host assembly: the command mnemonics (rule R68) and the pseudo-instructions (rule R69) as the host
instructions they expand to. -/

namespace Sys2Proof.Machine

open Config

/-- `WR off, w` (R67). -/
def asmWr (off : BitVec 12) (w : Word) : HostOp := .write off 4 w

/-- `RD off` (R67). -/
def asmRd (off : BitVec 12) : HostOp := .read off 4

/-- `CMD w` (R68): write an arbitrary word to CMD. -/
def asmCmd (w : Word) : HostOp := asmWr 0x014#12 w

/-- The mnemonic of a command (R68): write its word to CMD. -/
def asmCommand (i : Instr) : HostOp := asmCmd (encode i)

/-- `WAIT` (R69). -/
def asmWait : HostOp := .poll 0x018#12 0x00000001#32 0x00000000#32

/-- `WAITDONE` (R69). -/
def asmWaitDone : HostOp := .poll 0x018#12 0x00000002#32 0x00000002#32

/-- `CLRDONE` (R69). -/
def asmClrDone : HostOp := asmWr 0x018#12 0x00000002#32

/-- `CLROVR` (R69). -/
def asmClrOvr : HostOp := asmWr 0x018#12 0x00000008#32

/-- One WR per four bytes from `off` up, little-endian, the last word padded with zero bytes (R69). -/
def asmWrBytes : Nat → List Byte → List HostOp
  | off, b0 :: b1 :: b2 :: b3 :: rest =>
    asmWr (BitVec.ofNat 12 off) (le32 ⟨[b0, b1, b2, b3], rfl⟩) :: asmWrBytes (off + 4) rest
  | off, [b0, b1, b2] => [asmWr (BitVec.ofNat 12 off) (le32 ⟨[b0, b1, b2, 0#8], rfl⟩)]
  | off, [b0, b1] => [asmWr (BitVec.ofNat 12 off) (le32 ⟨[b0, b1, 0#8, 0#8], rfl⟩)]
  | off, [b0] => [asmWr (BitVec.ofNat 12 off) (le32 ⟨[b0, 0#8, 0#8, 0#8], rfl⟩)]
  | _, [] => []

/-- `LOADSECRET b`, for at most 256 bytes (R69). -/
def asmLoadSecret (b : List Byte) : List HostOp :=
  asmWrBytes 0x100 b ++ [asmWr 0x01C#12 (BitVec.ofNat 32 b.length)]

/-- The ASCII bytes of a text (R69); none for a text with a character outside ASCII, which has none. -/
def asciiBytes (text : String) : Option (List Byte) :=
  if text.toList.all (fun c => c.toNat < 128) then some (text.toList.map fun c => BitVec.ofNat 8 c.toNat) else none

/-- `LOADSECRET "text"`: LOADSECRET of the ASCII bytes of the text (R69). -/
def asmLoadSecretText (text : String) : Option (List HostOp) := (asciiBytes text).map asmLoadSecret

/-- `LOADBLOCK b` (R69). -/
def asmLoadBlock (b : Bytes BLOCK) : List HostOp := asmWrBytes 0x200 b.data ++ [asmWr 0x020#12 64#32]

/-- `READOUT` (R69). -/
def asmReadOut : List HostOp := (List.range 16).map fun k => asmRd (BitVec.ofNat 12 (0x240 + 4 * k))

/-- `ENCRYPTBLK b` (R69). -/
def asmEncryptBlk (b : Bytes BLOCK) : List HostOp := asmLoadBlock b ++ [asmCommand .encrypt, asmWait] ++ asmReadOut

/-- `DECRYPTBLK b` (R69). -/
def asmDecryptBlk (b : Bytes BLOCK) : List HostOp := asmLoadBlock b ++ [asmCommand .decrypt, asmWait] ++ asmReadOut

/-- `CONSTRUCT b` (R69). -/
def asmConstruct (b : List Byte) : List HostOp := asmLoadSecret b ++ [asmCommand .derive, asmWait]

end Sys2Proof.Machine
end

