-- ==== Sys2Proof/Machine/Step.lean ====
section
/-! DEFINITION. One step of the machine: the next agent of the interleaving moves (rules R10, R53). -/

namespace Sys2Proof.Machine

/-- One step: choose the agent, let it move. -/
def step (s : State) : Host.Outcome State Fault Refusal := takeTurn (chooseTurn s).1 (chooseTurn s).2

/-- `s` with a command word at the head of what the host executes, and the host next in the interleaving: the hardware
fetches nothing (R14), so a command comes to run by a host write to CMD (R20). The word is the low `nbits` bits of
`w`; a command word has 32 bits (R59). Log entry 7. -/
def State.withFetchWord (s : State) (nbits w : Nat) : State :=
  { s with
    program := asmCmd (BitVec.ofNat 32 (w % 2 ^ nbits)) :: s.program
    sched := .host :: s.sched }

end Sys2Proof.Machine
end

