-- ==== Sys2Proof/Safety.lean ====
section
/-! DEFINITION. What the claims speak of: the hardware's own part of a state, a run, its end and its safety (rule R158), the
engine steps a command still needs (R155), and the invariants of the sequencer. -/

namespace Sys2Proof.Machine

open Config

/-- The elements of R38 alone: what the host and the schedule hold is blanked. Two states with the same `hw` are the
same hardware state. -/
def State.hw (s : State) : State := { s with program := [], obs := [], sched := [], waited := 0, tick := 0 }

/-- `k` steps, ending at the first fault. -/
def runSteps : Nat → State → Result
  | 0, s => .next s
  | k + 1, s =>
    match step s with
    | .next t => runSteps k t
    | .fault f => .fault f
    | .refused r => .refused r

/-- A run is over when the host has nothing left and the engine is idle (R158). -/
def State.runOver (s : State) : Bool := s.program.isEmpty && !busy s

/-- A safe run of `k` steps: no bus error and no failed check (R158). -/
def SafeRun (k : Nat) (s : State) : Prop := ∃ t, runSteps k s = .next t

/-- An execution: an endless sequence of states, each the step of the one before (R53). -/
def Execution (r : Nat → State) : Prop := ∀ k, step (r k) = .next (r (k + 1))

/-- The engine's next step is enabled (R156). -/
def engineEnabled (s : State) : Prop := s.phase ≠ .idle

/-- Weak fairness to the engine (R156): where its step stays enabled from some point on, it is taken at that point or
later. -/
def WeaklyFair (r : Nat → State) : Prop :=
  ∀ k, (∀ j, k ≤ j → engineEnabled (r j)) → ∃ j, k ≤ j ∧ (chooseTurn (r j)).1 = .engine

/-- `k` engine steps in a row. -/
def engineSteps : Nat → State → State
  | 0, s => s
  | k + 1, s => engineSteps k (engineStep s)

/-- The engine steps the command in progress still needs, its completion included (R91, R116, R155); 0 while IDLE. -/
def stepsLeft (s : State) : Nat :=
  match s.phase with
  | .idle => 0
  | .derive => (KS_BLOCKS - s.ksBlk.val) * ITER + (ITER + 1 - s.ksIter.val)
  | .enc => ROUNDS - s.ciRnd.val
  | .dec => s.ciRnd.val + 1

/-- The host is the next agent and its next instruction is the write of `w` at `off`. -/
def hostWritesNext (s : State) (off : BitVec 12) (w : Word) : Prop :=
  (chooseTurn s).1 = .host ∧ ∃ rest, s.program = .write off 4 w :: rest

/-- The host is the next agent, its next instruction writes the word of the command `i` to CMD, and the engine is idle,
so that the command is accepted (R129). -/
def acceptsNext (s : State) (i : Instr) : Prop :=
  hostWritesNext s 0x014#12 (encode i) ∧ busy s = false

/-- The next step is the engine's last step of the command in progress. -/
def completesNext (s : State) : Prop := (chooseTurn s).1 = .engine ∧ stepsLeft s = 1

/-- The offsets whose writes are dropped while the engine is busy: CMD, SECRET_LEN, BLOCK_LEN, SECRET, BLOCK_IN (R49). -/
def dropsWhileBusy (off : BitVec 12) : Prop :=
  off.toNat % 4 = 0 ∧ (off = 0x014#12 ∨ off = 0x01C#12 ∨ off = 0x020#12 ∨ (0x100 ≤ off.toNat ∧ off.toNat < 0x240))

/-- The unmapped offsets of R45: 0x00C, 0x024 to 0x0FF, 0x280 to 0xFFF. -/
def unmappedOffset (off : BitVec 12) : Prop :=
  (0x00C ≤ off.toNat ∧ off.toNat < 0x010) ∨ (0x024 ≤ off.toNat ∧ off.toNat < 0x100) ∨ 0x280 ≤ off.toNat

/-- A state with every secret-bearing element blanked: SECRET, KM, the PRF values and the working block. Two states
with the same `open_` look alike to everyone who holds none of them. -/
def State.open_ (s : State) : State :=
  { s with
    secret := Bytes.zeros SECRET_MAX
    km := Bytes.zeros DKLEN
    ksK0 := Bytes.zeros BLOCK
    ksU := Bytes.zeros HLEN
    ksT := Bytes.zeros HLEN
    ciW := Bytes.zeros BLOCK }

/-- LAST_OP of the long command that each phase runs (R26, R33). -/
def phaseOp : Phase → BitVec 4
  | .idle => 0x0#4
  | .derive => 0x1#4
  | .enc => 0x2#4
  | .dec => 0x3#4

/-- The sequencer's invariant: what holds of every element in every reachable state. -/
structure SeqInv (s : State) : Prop where
  /-- codes 5 to 15 are never produced (R126, I6) -/
  err : s.err ≤ 4#4
  /-- LAST_OP is an opcode or 0xF (R26) -/
  lastOp : s.lastOp ≤ 4#4 ∨ s.lastOp = 0xF#4
  /-- the key-schedule elements are clear while PHASE is not DERIVE (R34, R37) -/
  ksClear : s.phase ≠ .derive → s.ksK0 = Bytes.zeros BLOCK ∧ s.ksBlk = 0 ∧ s.ksIter = 0 ∧ s.ksU = Bytes.zeros HLEN ∧
    s.ksT = Bytes.zeros HLEN
  /-- the cipher elements are clear while PHASE is neither ENC nor DEC (R35, R37) -/
  ciClear : s.phase ≠ .enc → s.phase ≠ .dec → s.ciW = Bytes.zeros BLOCK ∧ s.ciRnd = 0
  /-- both counters of a DERIVE are at least 1 (R34) -/
  counters : s.phase = .derive → 1 ≤ s.ksBlk.val ∧ 1 ≤ s.ksIter.val
  /-- a DERIVE in progress has passed its check and ended the old instance (R90) -/
  deriving_ : s.phase = .derive → s.secretLen.toNat ≤ SECRET_MAX ∧ s.keyValid = false
  /-- an ENCRYPT or DECRYPT in progress has passed its checks (R108, R109) -/
  ciphering : s.phase = .enc ∨ s.phase = .dec → s.keyValid = true ∧ s.blockLen.toNat = BLOCK
  /-- while a long command is in progress ERR and DONE are 0 and LAST_OP is its opcode (R23, R26) -/
  running : s.phase ≠ .idle → s.err = 0#4 ∧ s.done = false ∧ s.lastOp = phaseOp s.phase
  /-- with no instance and no DERIVE in progress, no key material is held (R24, R120, R142) -/
  noKey : s.keyValid = false → s.phase ≠ .derive → s.km = Bytes.zeros DKLEN

/-- How far the command in progress has come: what its internal elements hold, in terms of the inputs still in the
registers (R94, R105, R106, R115, R154). -/
structure ProgressInv (s : State) : Prop where
  /-- KS_K0 is the key block of the secret (R90) -/
  keyBlock : s.phase = .derive → s.ksK0 = hkey (secretOperand s)
  /-- KM holds `T_1 .. T_(i-1)` (R92, R94) -/
  blocks : s.phase = .derive → ∀ (i : Nat) (h : i + 1 < s.ksBlk.val),
    sliceBytes s.km (32 * i) HLEN (by have := s.ksBlk.isLt; simp only [KS_BLOCKS, DKLEN, ROUNDS, HALF, HLEN] at *; omega) =
      pbkdf2Block (secretOperand s) SALT ITER (i + 1)
  /-- KS_U and KS_T are `U_(j-1)` and `U_1 ^ ... ^ U_(j-1)` (R34, R94) -/
  iterations : s.phase = .derive → 2 ≤ s.ksIter.val →
    (s.ksU, s.ksT) = prfPair (secretOperand s) SALT s.ksBlk.val (s.ksIter.val - 2)
  /-- CI_W is the whitened block after the rounds done, ascending (R105, R111) -/
  encrypting : s.phase = .enc →
    s.ciW = ((roundKeys s.km).take s.ciRnd.val).foldl cipherRound (xorBytes s.blockIn (prekey s.km))
  /-- CI_W is the whitened block after the rounds done, descending (R106, R113) -/
  decrypting : s.phase = .dec →
    s.ciW = ((roundKeys s.km).reverse.take (ROUNDS - 1 - s.ciRnd.val)).foldl cipherRound (xorBytes s.blockIn (postkey s.km))

end Sys2Proof.Machine
end

