-- ==== Sys2Proof/Certificates/Slice0/Obligations.lean ====
section
/-! DEFINITION. The statements for the provers. -/

open Sys2Proof Sys2Proof.Machine Sys2Proof.Config

/-! ## Encoding -/

/-- R60: legality is the two conditions on the word, a legal command has exactly one encoding, decoding is total. -/
def Obligations.CommandWordsDecodeUniquely : Prop :=
  (∀ w : Word, (∃ i, decode w = .ok i) ↔ (w.extractLsb' 4 28 = 0#28 ∧ (w.extractLsb' 0 4).toNat ≤ 4)) ∧
  (∀ (w : Word) (i : Instr), decode w = .ok i ↔ w = encode i) ∧
  (∀ w : Word, (∃ i, decode w = .ok i) ∨ ∃ e, decode w = .error e)

/-- R61's words, written out, and three illegal ones (V-CT-2a). -/
def Obligations.TableWordsDecode : Prop :=
  decodeTableWord 32 0x00000000 = some .nop ∧ decodeTableWord 32 0x00000001 = some .derive ∧
  decodeTableWord 32 0x00000002 = some .encrypt ∧ decodeTableWord 32 0x00000003 = some .decrypt ∧
  decodeTableWord 32 0x00000004 = some .zeroize ∧ decodeTableWord 32 0x00000005 = none ∧
  decodeTableWord 32 0x00000010 = none ∧ decodeTableWord 32 0x80000002 = none

/-- R62: which words are illegal; an illegal word completes at once with code 4 and LAST_OP 0xF and changes nothing
else. -/
def Obligations.IllegalWordCompletesWithIllegalCommand : Prop :=
  (∀ w : Word, (∀ i, w ≠ encode i) ↔
    (w.extractLsb' 4 28 = 0#28 ∧ 5 ≤ (w.extractLsb' 0 4).toNat) ∨ w.extractLsb' 4 28 ≠ 0#28) ∧
  ∀ (s : State) (w : Word), SeqInv s → busy s = false →
    (w.extractLsb' 4 28 = 0#28 ∧ 5 ≤ (w.extractLsb' 0 4).toNat) ∨ w.extractLsb' 4 28 ≠ 0#28 →
    busWrite 0x014#12 4 w s = .next { s with err := 4#4, done := true, lastOp := 0xF#4 }

/-! ## The five commands: what each answers, and its frame (every field not named is unchanged) -/

/-- R119: NOP, from its pseudocode to its example. -/
def Obligations.NopCompletesAtOnce : Prop :=
  (∀ s, SeqInv s → busy s = false →
    exec .nop s = .next { s with err := 0#4, done := true, lastOp := 0x0#4 } ∧
    irq { s with err := 0#4, done := true, lastOp := 0x0#4 } = s.ie) ∧
  (∀ s, busy s = true → exec .nop s = .next { s with ovr := true }) ∧
  (∃ t, busWrite 0x014#12 4 0x00000000#32 State.reset = .next t ∧ busRead 0x018#12 4 t = some 0x00000002#32)

/-- R120: the state after ZEROIZE is the reset state but for IE, OVR, DONE and LAST_OP; ENCRYPT and DECRYPT then report
NoKey. What the host and the schedule hold is unchanged. -/
def Obligations.ZeroizeLeavesTheResetState : Prop :=
  (∀ s, busy s = false →
    exec .zeroize s = .next
      { State.reset with
        ie := s.ie, ovr := s.ovr, done := true, lastOp := 0x4#4,
        program := s.program, obs := s.obs, sched := s.sched, waited := s.waited, tick := s.tick }) ∧
  (∀ s t, busy s = false → exec .zeroize s = .next t →
    exec .encrypt t = .next { t with err := 3#4, lastOp := 0x2#4 } ∧
    exec .decrypt t = .next { t with err := 3#4, lastOp := 0x3#4 }) ∧
  (∀ s, busy s = true → exec .zeroize s = .next { s with ovr := true })

/-- R89, R90: an idle DERIVE is rejected with InvalidSecret exactly when LEN is above 256, and starts otherwise. -/
def Obligations.DeriveStartsOrRejects : Prop :=
  ∀ s, SeqInv s → busy s = false →
    (s.secretLen.toNat ≤ 256 →
      exec .derive s = .next
        { s with
          err := 0#4, done := false, lastOp := 0x1#4, keyValid := false, phase := .derive,
          ksK0 := hkey (s.secret.data.take s.secretLen.toNat), ksBlk := 1, ksIter := 1,
          ksU := Bytes.zeros 32, ksT := Bytes.zeros 32 }) ∧
    (256 < s.secretLen.toNat → exec .derive s = .next { s with err := 2#4, done := true, lastOp := 0x1#4 })

/-- R108, R110, R131: an idle ENCRYPT reports NoKey, then InvalidBlockSize, and starts otherwise. -/
def Obligations.EncryptStartsOrRejects : Prop :=
  ∀ s, SeqInv s → busy s = false →
    (s.keyValid = true → s.blockLen.toNat = 64 →
      exec .encrypt s = .next
        { s with
          err := 0#4, done := false, lastOp := 0x2#4, phase := .enc,
          ciW := xorBytes s.blockIn (prekey s.km), ciRnd := 0 }) ∧
    (s.keyValid = false → exec .encrypt s = .next { s with err := 3#4, done := true, lastOp := 0x2#4 }) ∧
    (s.keyValid = true → s.blockLen.toNat ≠ 64 →
      exec .encrypt s = .next { s with err := 1#4, done := true, lastOp := 0x2#4 })

/-- R109, R110, R131: an idle DECRYPT reports NoKey, then InvalidBlockSize, and starts otherwise. -/
def Obligations.DecryptStartsOrRejects : Prop :=
  ∀ s, SeqInv s → busy s = false →
    (s.keyValid = true → s.blockLen.toNat = 64 →
      exec .decrypt s = .next
        { s with
          err := 0#4, done := false, lastOp := 0x3#4, phase := .dec,
          ciW := xorBytes s.blockIn (postkey s.km), ciRnd := 9 }) ∧
    (s.keyValid = false → exec .decrypt s = .next { s with err := 3#4, done := true, lastOp := 0x3#4 }) ∧
    (s.keyValid = true → s.blockLen.toNat ≠ 64 →
      exec .decrypt s = .next { s with err := 1#4, done := true, lastOp := 0x3#4 })

/-- R132: a rejected command, legal or not, changes ERR, DONE and LAST_OP alone. -/
def Obligations.RejectedCommandChangesStatusOnly : Prop :=
  ∀ (s t : State) (w : Word), SeqInv s → busy s = false → busWrite 0x014#12 4 w s = .next t → t.err ≠ 0#4 →
    t = { s with err := t.err, done := true, lastOp := t.lastOp }

/-- R131: exactly one code, in the rule's priority. -/
def Obligations.ErrorPriority : Prop :=
  ∀ (s : State) (w : Word),
    (∀ (off : BitVec 12) (size : Nat), size ≠ 4 ∨ off.toNat % 4 ≠ 0 ∨ unmappedOffset off →
      busWrite off size w s = .fault (.busError off)) ∧
    (busy s = true → busWrite 0x014#12 4 w s = .next { s with ovr := true }) ∧
    (busy s = false → ∃ t, busWrite 0x014#12 4 w s = .next t ∧
      t.err =
        if 4 < w.toNat then 4#4
        else if w.toNat = 1 then (if 256 < s.secretLen.toNat then 2#4 else 0#4)
        else if w.toNat = 2 ∨ w.toNat = 3 then
          (if s.keyValid = false then 3#4 else if s.blockLen.toNat ≠ 64 then 1#4 else 0#4)
        else 0#4)

/-- R153: right after a CMD write to an idle engine, a STATUS read shows BUSY (a long command started) or DONE (the
command completed), and not both. -/
def Obligations.StatusAfterIssueShowsBusyOrDone : Prop :=
  ∀ (s : State) (w : Word), busy s = false →
    ∃ t v, busWrite 0x014#12 4 w s = .next t ∧ busRead 0x018#12 4 t = some v ∧ v.getLsbD 0 = !v.getLsbD 1

/-- R49, R128: a write while busy is dropped and sets OVR alone; CTRL and STATUS writes are honoured, read-only
registers ignore theirs; OVR does not disturb the command in progress. -/
def Obligations.WritesWhileBusyAreDropped : Prop :=
  ∀ (s : State) (w : Word), busy s = true →
    (∀ off, dropsWhileBusy off → busWrite off 4 w s = .next { s with ovr := true }) ∧
    (∀ i, exec i s = .next { s with ovr := true }) ∧
    busWrite 0x010#12 4 w s = .next { s with ie := w.getLsbD 0 } ∧
    busWrite 0x018#12 4 w s = .next { s with done := s.done && !w.getLsbD 1, ovr := s.ovr && !w.getLsbD 3 } ∧
    (∀ off : BitVec 12, off.toNat % 4 = 0 → off.toNat < 0x00C ∨ (0x240 ≤ off.toNat ∧ off.toNat < 0x280) →
      busWrite off 4 w s = .next s) ∧
    engineStep { s with ovr := true } = { engineStep s with ovr := true }

/-! ## The step -/

/-- R20, R129: when the host is next and writes a command's word to CMD, the step is that command's meaning, the host's
program moved past the write. That withFetchWord places a word to be run so, and how it and decodeTableWord take a number's
bits, is the model's choice: log entries 7 and 15. -/
def Obligations.StepRunsTheIssuedCommand : Prop :=
  (∀ (s : State) (i : Instr) (w : Word) (rest : List HostOp), decode w = .ok i → (chooseTurn s).1 = .host →
    s.program = .write 0x014#12 4 w :: rest → step s = exec i { (chooseTurn s).2 with program := rest }) ∧
  (∀ (s : State) (i : Instr) (nbits w : Nat), decodeTableWord nbits w = some i → step (s.withFetchWord nbits w) = exec i s)

/-- R10, R53: whatever the state, each agent can be the next to move, and a step is that agent's step. Rests on log entry
1 (the schedule is data in State): the model's choice. -/
def Obligations.AnyAgentMayMoveNext : Prop :=
  ∀ (s : State) (rest : List Turn),
    step { s with sched := .host :: rest } = hostStep { s with sched := rest } ∧
    step { s with sched := .engine :: rest } = .next (engineStep { s with sched := rest }) ∧
    step { s with sched := .reset :: rest } = .next (assertReset { s with sched := rest })

/-- R142, R144: a reset step sets every element to R38's value whatever the engine is doing, and leaves the engine idle,
waiting, and irq low. -/
def Obligations.ResetSetsEveryElement : Prop :=
  ∀ s t, takeTurn .reset s = .next t →
    t.ie = false ∧ t.done = false ∧ t.keyValid = false ∧ t.ovr = false ∧ t.err = 0#4 ∧ t.lastOp = 0#4 ∧
    t.secretLen = 0#16 ∧ t.blockLen = 0#16 ∧ t.secret = Bytes.zeros 256 ∧ t.blockIn = Bytes.zeros 64 ∧
    t.blockOut = Bytes.zeros 64 ∧ t.km = Bytes.zeros 448 ∧ t.phase = .idle ∧ t.ksK0 = Bytes.zeros 64 ∧ t.ksBlk = 0 ∧
    t.ksIter = 0 ∧ t.ksU = Bytes.zeros 32 ∧ t.ksT = Bytes.zeros 32 ∧ t.ciW = Bytes.zeros 64 ∧ t.ciRnd = 0 ∧
    busy t = false ∧ irq t = false ∧ engineStep t = t

/-- R67: RD, RD with a check, and POLL: the value read is observed; a check that fails is a fault of the run; a POLL
whose condition does not hold stays the next instruction. -/
def Obligations.HostReadsObserveAndPollRepeats : Prop :=
  ∀ (s : State) (off : BitVec 12) (x : Word) (rest : List HostOp), busRead off 4 s = some x →
    hostStep { s with program := .read off 4 :: rest } = .next { s with program := rest, obs := s.obs ++ [x] } ∧
    (∀ v, hostStep { s with program := .check off v :: rest } =
      if x = v then .next { s with program := rest, obs := s.obs ++ [x] } else .fault (.checkFailed off)) ∧
    (∀ mask v, hostStep { s with program := .poll off mask v :: rest } = .next
      { s with program := if x &&& mask = v then rest else .poll off mask v :: rest, obs := s.obs ++ [x] })

/-! ## The register window -/

/-- R43, R44, R45: a bus error is answered exactly to a size other than 4, an unaligned or an unmapped offset, and is a
fault of the transaction; an address outside the window reaches no offset. -/
def Obligations.BusErrorsExactly : Prop :=
  (∀ (s : State) (off : BitVec 12) (size : Nat),
    busRead off size s = none ↔ (size ≠ 4 ∨ off.toNat % 4 ≠ 0 ∨ unmappedOffset off)) ∧
  (∀ (s : State) (off : BitVec 12) (size : Nat) (rest : List HostOp),
    hostStep { s with program := .read off size :: rest } = .fault (.busError off) ↔ busRead off size s = none) ∧
  (∀ (s : State) (off : BitVec 12) (size : Nat) (w : Word),
    ((∃ t, busWrite off size w s = .next t) ∨ busWrite off size w s = .fault (.busError off)) ∧
    (busWrite off size w s = .fault (.busError off) ↔ (size ≠ 4 ∨ off.toNat % 4 ≠ 0 ∨ unmappedOffset off))) ∧
  (∀ a : Nat, windowOffset a = none ↔ (a < engineBase ∨ engineBase + 4096 ≤ a))

/-- R16, R17, R18: ID, PARAM0 and PARAM1 always read their constants, whose fields are the parameters, and ignore
writes. -/
def Obligations.ConstantRegisters : Prop :=
  (∀ s, busRead 0x000#12 4 s = some 0x46504B31#32 ∧ busRead 0x004#12 4 s = some 0x0D40200A#32 ∧
    busRead 0x008#12 4 s = some 0x010001F4#32) ∧
  (∀ s w, busWrite 0x000#12 4 w s = .next s ∧ busWrite 0x004#12 4 w s = .next s ∧ busWrite 0x008#12 4 w s = .next s) ∧
  (0x0D40200A#32 : Word).toNat = ROUNDS + HALF * 2 ^ 8 + BLOCK * 2 ^ 16 + SALT.length * 2 ^ 24 ∧
  (0x010001F4#32 : Word).toNat = ITER + SECRET_MAX * 2 ^ 16

/-- R21: every field of STATUS where the table puts it, reserved bits 0, a write affects DONE and OVR alone, and all
fields read 0 after reset. -/
def Obligations.StatusFields : Prop :=
  (∀ s, ∃ v : Word, busRead 0x018#12 4 s = some v ∧
    v.getLsbD 0 = decide (s.phase ≠ .idle) ∧ v.getLsbD 1 = s.done ∧ v.getLsbD 2 = s.keyValid ∧ v.getLsbD 3 = s.ovr ∧
    v.extractLsb' 4 4 = 0#4 ∧ v.extractLsb' 8 4 = s.err ∧ v.extractLsb' 12 4 = s.lastOp ∧ v.extractLsb' 16 16 = 0#16) ∧
  (∀ s w, busWrite 0x018#12 4 w s =
    .next { s with done := s.done && !w.getLsbD 1, ovr := s.ovr && !w.getLsbD 3 }) ∧
  busRead 0x018#12 4 State.reset = some 0#32

/-- R19: CTRL has the one field IE, writable whether or not the engine is busy, which gates DONE onto irq. -/
def Obligations.ControlRegister : Prop :=
  (∀ s w, busWrite 0x010#12 4 w s = .next { s with ie := w.getLsbD 0 }) ∧
  (∀ s, busRead 0x010#12 4 s = some (if s.ie then 1#32 else 0#32)) ∧
  (∀ s : State, irq s = (s.done && s.ie)) ∧
  busRead 0x010#12 4 State.reset = some 0#32

/-- R27, R28: a length written while idle reads back in bits 15:0, bits 31:16 read 0, and nothing else changes; a write
while busy is dropped. -/
def Obligations.LengthRegistersReadBack : Prop :=
  (∀ s w, busy s = false →
    busWrite 0x01C#12 4 w s = .next { s with secretLen := w.extractLsb' 0 16 } ∧
    busWrite 0x020#12 4 w s = .next { s with blockLen := w.extractLsb' 0 16 }) ∧
  (∀ s w, busy s = true →
    busWrite 0x01C#12 4 w s = .next { s with ovr := true } ∧ busWrite 0x020#12 4 w s = .next { s with ovr := true }) ∧
  (∀ s t w, busy s = false → busWrite 0x01C#12 4 w s = .next t →
    busRead 0x01C#12 4 t = some (w &&& 0x0000FFFF#32) ∧ t.secretLen.toNat = w.toNat % 2 ^ 16) ∧
  (∀ s t w, busy s = false → busWrite 0x020#12 4 w s = .next t →
    busRead 0x020#12 4 t = some (w &&& 0x0000FFFF#32) ∧ t.blockLen.toNat = w.toNat % 2 ^ 16)

/-- R47: the little-endian packing of the three buffers, written and read, and the rule's example. -/
def Obligations.BufferPackingIsLittleEndian : Prop :=
  (∀ (s : State) (k : Fin 64) (w : Word), busy s = false →
    ∃ t, busWrite (BitVec.ofNat 12 (0x100 + 4 * k.val)) 4 w s = .next t ∧ t = { s with secret := t.secret } ∧
      ∀ i : Fin 256, t.secret.get i =
        if 4 * k.val ≤ i.val ∧ i.val < 4 * k.val + 4 then w.extractLsb' (8 * (i.val - 4 * k.val)) 8 else s.secret.get i) ∧
  (∀ (s : State) (k : Fin 16) (w : Word), busy s = false →
    ∃ t, busWrite (BitVec.ofNat 12 (0x200 + 4 * k.val)) 4 w s = .next t ∧ t = { s with blockIn := t.blockIn } ∧
      ∀ i : Fin 64, t.blockIn.get i =
        if 4 * k.val ≤ i.val ∧ i.val < 4 * k.val + 4 then w.extractLsb' (8 * (i.val - 4 * k.val)) 8 else s.blockIn.get i) ∧
  (∀ (s : State) (k : Fin 16), ∃ v : Word, busRead (BitVec.ofNat 12 (0x200 + 4 * k.val)) 4 s = some v ∧
    ∀ b : Fin 4, v.extractLsb' (8 * b.val) 8 = s.blockIn.get ⟨4 * k.val + b.val, by show _ < 64; omega⟩) ∧
  (∀ (s : State) (k : Fin 16), ∃ v : Word, busRead (BitVec.ofNat 12 (0x240 + 4 * k.val)) 4 s = some v ∧
    ∀ b : Fin 4, v.extractLsb' (8 * b.val) 8 = s.blockOut.get ⟨4 * k.val + b.val, by show _ < 64; omega⟩) ∧
  (∀ s t u, busy s = false → busWrite 0x100#12 4 0x74736574#32 s = .next t →
    busWrite 0x104#12 4 0x79656B2D#32 t = .next u →
    u.secret.data.take 8 = [0x74#8, 0x65#8, 0x73#8, 0x74#8, 0x2D#8, 0x6B#8, 0x65#8, 0x79#8])

/-- R46: writes of read-only registers are ignored, write-only registers read 0, reserved bits read 0 and ignore
writes. -/
def Obligations.ReadOnlyWriteOnlyAndReservedBits : Prop :=
  (∀ (s : State) (off : BitVec 12) (w : Word), off.toNat % 4 = 0 →
    off.toNat < 0x00C ∨ (0x240 ≤ off.toNat ∧ off.toNat < 0x280) → busWrite off 4 w s = .next s) ∧
  (∀ (s : State) (off : BitVec 12), off.toNat % 4 = 0 →
    off = 0x014#12 ∨ (0x100 ≤ off.toNat ∧ off.toNat < 0x200) → busRead off 4 s = some 0#32) ∧
  (∀ (s : State), ∃ c st sl bl : Word,
    busRead 0x010#12 4 s = some c ∧ c &&& 0xFFFFFFFE#32 = 0#32 ∧
    busRead 0x018#12 4 s = some st ∧ st &&& 0xFFFF00F0#32 = 0#32 ∧
    busRead 0x01C#12 4 s = some sl ∧ sl &&& 0xFFFF0000#32 = 0#32 ∧
    busRead 0x020#12 4 s = some bl ∧ bl &&& 0xFFFF0000#32 = 0#32) ∧
  (∀ (s : State) (w : Word),
    busWrite 0x010#12 4 w s = busWrite 0x010#12 4 (w &&& 0x00000001#32) s ∧
    busWrite 0x018#12 4 w s = busWrite 0x018#12 4 (w &&& 0x0000000A#32) s ∧
    busWrite 0x01C#12 4 w s = busWrite 0x01C#12 4 (w &&& 0x0000FFFF#32) s ∧
    busWrite 0x020#12 4 w s = busWrite 0x020#12 4 (w &&& 0x0000FFFF#32) s)

/-- R50: a host step that is no write changes no element of the hardware, and every read answers after it what it
answered before. -/
def Obligations.ReadsHaveNoSideEffect : Prop :=
  ∀ s t, (∀ off size w rest, s.program ≠ .write off size w :: rest) → hostStep s = .next t →
    t.hw = s.hw ∧ ∀ off size, busRead off size t = busRead off size s

/-- R134: masking loses no completion. -/
def Obligations.MaskingLosesNoCompletion : Prop :=
  (∀ (s : State) (b : Bool), engineStep { s with ie := b } = { engineStep s with ie := b }) ∧
  (∀ (s t : State) (b : Bool) (w : Word), busWrite 0x014#12 4 w s = .next t →
    busWrite 0x014#12 4 w { s with ie := b } = .next { t with ie := b }) ∧
  (∀ s t, s.done = true → busWrite 0x010#12 4 0x00000001#32 s = .next t → irq t = true) ∧
  (∀ s t, busWrite 0x010#12 4 0x00000000#32 s = .next t → irq t = false ∧ t.done = s.done) ∧
  (∀ (s t : State) (w : Word), busy s = false → s.ie = true → busWrite 0x014#12 4 w s = .next t → busy t = false →
    irq t = true)

/-! ## Whole-machine rules: over every step of every agent

Which agent moves next is what `chooseTurn` reads off the state (log entries 1 and 2, the model's representation of the
interleaving of R53); each statement holds whatever it answers. -/

/-- R25: OVR is set exactly by a dropped write, cleared only by a STATUS write with bit 3 and by reset, read by no
command, and raises no interrupt. -/
def Obligations.OvrIsSticky : Prop :=
  (∀ s t, step s = .next t → s.ovr = false →
    (t.ovr = true ↔ busy s = true ∧ ∃ off w, hostWritesNext s off w ∧ dropsWhileBusy off)) ∧
  (∀ s t, step s = .next t → s.ovr = true →
    (t.ovr = false ↔ (chooseTurn s).1 = .reset ∨ ∃ w, hostWritesNext s 0x018#12 w ∧ w.getLsbD 3 = true)) ∧
  (∀ (i : Instr) (s t : State) (b : Bool), busy s = false → exec i s = .next t →
    exec i { s with ovr := b } = .next { t with ovr := b }) ∧
  (∀ (s : State) (b : Bool), irq { s with ovr := b } = irq s)

/-- R23: DONE is set only by a completion, and cleared exactly by the acceptance of a long command, a STATUS write with
bit 1, and reset. -/
def Obligations.DoneIsSetByCompletionsOnly : Prop :=
  ∀ s t, SeqInv s → step s = .next t →
    (s.done = false → t.done = true →
      completesNext s ∨ (busy s = false ∧ busy t = false ∧ ∃ w, hostWritesNext s 0x014#12 w)) ∧
    (completesNext s → t.done = true) ∧
    (s.done = true →
      (t.done = false ↔ (chooseTurn s).1 = .reset ∨ (∃ w, hostWritesNext s 0x018#12 w ∧ w.getLsbD 1 = true) ∨
        (busy s = false ∧ busy t = true)))

/-- R24, R124: a cipher instance begins exactly at the completion of a DERIVE, and ends exactly at the acceptance of a
DERIVE that fits, at ZEROIZE and at reset. -/
def Obligations.InstanceLifetime : Prop :=
  ∀ s t, SeqInv s → step s = .next t →
    (s.keyValid = false → (t.keyValid = true ↔ completesNext s ∧ s.phase = .derive)) ∧
    (s.keyValid = true →
      (t.keyValid = false ↔ (chooseTurn s).1 = .reset ∨ acceptsNext s .zeroize ∨
        (acceptsNext s .derive ∧ s.secretLen.toNat ≤ 256)))

/-- R95: KM is written only by a DERIVE in progress, by ZEROIZE and by reset; while an instance exists it is constant but
for ZEROIZE and reset. -/
def Obligations.KeyMaterialIsWrittenByDeriveZeroizeResetOnly : Prop :=
  ∀ s t, step s = .next t → t.km ≠ s.km →
    ((chooseTurn s).1 = .reset ∨ acceptsNext s .zeroize ∨ ((chooseTurn s).1 = .engine ∧ s.phase = .derive)) ∧
    (SeqInv s → s.keyValid = true → (chooseTurn s).1 = .reset ∨ acceptsNext s .zeroize)

/-- R29, R54: BLOCK_OUT changes only in the step that completes an ENCRYPT or DECRYPT (which clears BUSY and sets DONE),
at ZEROIZE and at reset. -/
def Obligations.BlockOutChangesAtCompletionOnly : Prop :=
  ∀ s t, step s = .next t → t.blockOut ≠ s.blockOut →
    (chooseTurn s).1 = .reset ∨ acceptsNext s .zeroize ∨
      (completesNext s ∧ (s.phase = .enc ∨ s.phase = .dec) ∧ busy t = false ∧ t.done = true ∧ t.err = 0#4)

/-- R33: only the acceptance of a long command leaves IDLE, into its own phase; only completion and reset return to it;
while IDLE the engine takes no step. -/
def Obligations.PhaseChangesByAcceptanceAndCompletionOnly : Prop :=
  (∀ s t, SeqInv s → step s = .next t → t.phase ≠ s.phase →
    (s.phase = .idle ∧ ((acceptsNext s .derive ∧ t.phase = .derive) ∨ (acceptsNext s .encrypt ∧ t.phase = .enc) ∨
      (acceptsNext s .decrypt ∧ t.phase = .dec))) ∨
    (s.phase ≠ .idle ∧ t.phase = .idle ∧ (completesNext s ∨ (chooseTurn s).1 = .reset))) ∧
  (∀ s, s.phase = .idle → engineStep s = s)

/-- R49, R115, R154: while a command is in progress its inputs are frozen: BLOCK_IN and BLOCK_LEN always, SECRET and
SECRET_LEN until the completion of a DERIVE, KM but for the DERIVE's own blocks. -/
def Obligations.InputsAreFrozenWhileBusy : Prop :=
  ∀ s t, busy s = true → (chooseTurn s).1 ≠ .reset → step s = .next t →
    t.blockIn = s.blockIn ∧ t.blockLen = s.blockLen ∧
    (¬ (completesNext s ∧ s.phase = .derive) → t.secret = s.secret ∧ t.secretLen = s.secretLen) ∧
    (s.phase ≠ .derive → t.km = s.km)

/-- An engine step's frame (R64, R92, R111 to R114): it touches no register the command does not write. -/
def Obligations.EngineStepFrame : Prop :=
  ∀ s, (engineStep s).ie = s.ie ∧ (engineStep s).ovr = s.ovr ∧ (engineStep s).lastOp = s.lastOp ∧
    (engineStep s).blockIn = s.blockIn ∧ (engineStep s).blockLen = s.blockLen ∧
    (engineStep s).program = s.program ∧ (engineStep s).obs = s.obs ∧
    (s.phase ≠ .derive → (engineStep s).km = s.km ∧ (engineStep s).keyValid = s.keyValid ∧
      (engineStep s).secret = s.secret ∧ (engineStep s).secretLen = s.secretLen) ∧
    (s.phase = .derive ∨ 1 < stepsLeft s → (engineStep s).blockOut = s.blockOut) ∧
    (s.phase ≠ .idle → 1 < stepsLeft s → (engineStep s).err = s.err ∧ (engineStep s).done = s.done ∧
      (engineStep s).keyValid = s.keyValid ∧ (engineStep s).secret = s.secret ∧ (engineStep s).secretLen = s.secretLen)

/-- R30, R39, D6, D22: SECRET and KM are readable by no transaction, and no step but a round of a cipher command carries
them anywhere else: two states alike but for the secret-bearing elements stay alike through every other step. -/
def Obligations.SecretsStayInside : Prop :=
  (∀ (s s' : State) (off : BitVec 12) (size : Nat), s.open_ = s'.open_ → busRead off size s = busRead off size s') ∧
  (∀ s s' t : State, s.open_ = s'.open_ → ¬ ((chooseTurn s).1 = .engine ∧ (s.phase = .enc ∨ s.phase = .dec)) →
    step s = .next t → ∃ t', step s' = .next t' ∧ t.open_ = t'.open_) ∧
  (∀ (s s' : State) (f : Fault), s.open_ = s'.open_ → step s = .fault f → step s' = .fault f)

/-! ## Invariants -/

/-- The sequencer's invariant holds at reset. -/
def Obligations.SequencerInvariantAtReset : Prop := SeqInv State.reset

/-- Every step keeps the sequencer's invariant (R22, R26, R34, R35, R37, R126). -/
def Obligations.EveryStepKeepsTheSequencerInvariant : Prop := ∀ s t, SeqInv s → step s = .next t → SeqInv t

/-- The progress invariant holds at reset. -/
def Obligations.ProgressInvariantAtReset : Prop := ProgressInv State.reset

/-- Every step keeps the progress invariant: what a command in progress has computed so far (R94, R115). -/
def Obligations.EveryStepKeepsTheProgressInvariant : Prop :=
  ∀ s t, SeqInv s → ProgressInv s → step s = .next t → ProgressInv t

/-! ## What the long commands compute, and in how many steps -/

/-- R91: the counters of a DERIVE after `k` engine steps, and that it is in progress until the 7000th. -/
def Obligations.DeriveCounterTrace : Prop :=
  ∀ s t, busy s = false → s.secretLen.toNat ≤ 256 → exec .derive s = .next t →
    (∀ k, k < 7000 → (engineSteps k t).phase = .derive ∧ (engineSteps k t).ksBlk.val = k / 500 + 1 ∧
      (engineSteps k t).ksIter.val = k % 500 + 1) ∧
    (engineSteps 7000 t).phase = .idle

/-- R94: the whole state when a DERIVE accepted with secret `SECRET[0 +: LEN]` completes. -/
def Obligations.DeriveComputesTheKeyMaterial : Prop :=
  ∀ s t, SeqInv s → busy s = false → s.secretLen.toNat ≤ 256 → exec .derive s = .next t →
    engineSteps 7000 t =
      { s with
        km := deriveKey (s.secret.data.take s.secretLen.toNat), keyValid := true,
        secret := Bytes.zeros 256, secretLen := 0#16, err := 0#4, done := true, lastOp := 0x1#4 }

/-- R88: the empty secret is legal, its key block is zeros, and its DERIVE completes with no error. -/
def Obligations.EmptySecretDerives : Prop :=
  ∀ s, SeqInv s → busy s = false → s.secretLen = 0#16 →
    ∃ t, exec .derive s = .next t ∧ t.ksK0 = Bytes.zeros 64 ∧ (engineSteps 7000 t).km = deriveKey [] ∧
      (engineSteps 7000 t).err = 0#4 ∧ (engineSteps 7000 t).keyValid = true ∧ busy (engineSteps 7000 t) = false

/-- R152: a second DERIVE without reloading the secret is no error and derives the empty secret's key material. -/
def Obligations.SecondDeriveUsesTheEmptySecret : Prop :=
  ∀ s t, SeqInv s → busy s = false → s.secretLen.toNat ≤ 256 → exec .derive s = .next t →
    (engineSteps 7000 t).secret = Bytes.zeros 256 ∧ (engineSteps 7000 t).secretLen = 0#16 ∧
    ∃ u, exec .derive (engineSteps 7000 t) = .next u ∧ (engineSteps 7000 u).err = 0#4 ∧
      (engineSteps 7000 u).km = deriveKey []

/-- R116, R117: an accepted ENCRYPT or DECRYPT takes exactly ten engine steps, completes with code 0, and the whole state
then: BLOCK_OUT is the cipher function's value, the inputs are as before. -/
def Obligations.CipherCommandsTakeTenSteps : Prop :=
  ∀ s t, SeqInv s → busy s = false → s.keyValid = true → s.blockLen.toNat = 64 →
    (exec .encrypt s = .next t →
      (∀ k, k < 10 → (engineSteps k t).phase = .enc) ∧
      engineSteps 10 t =
        { s with blockOut := encryptBlock s.km s.blockIn, err := 0#4, done := true, lastOp := 0x2#4 }) ∧
    (exec .decrypt s = .next t →
      (∀ k, k < 10 → (engineSteps k t).phase = .dec) ∧
      engineSteps 10 t =
        { s with blockOut := decryptBlock s.km s.blockIn, err := 0#4, done := true, lastOp := 0x3#4 })

/-- R94, R115, under any interleaving: the step that completes a command delivers its function of the inputs, which
still stand in the registers. -/
def Obligations.CompletionDeliversTheResult : Prop :=
  ∀ s t, SeqInv s → ProgressInv s → completesNext s → step s = .next t →
    (s.phase = .enc → t.blockOut = encryptBlock s.km s.blockIn) ∧
    (s.phase = .dec → t.blockOut = decryptBlock s.km s.blockIn) ∧
    (s.phase = .derive → t.km = deriveKey (secretOperand s) ∧ t.keyValid = true ∧ t.secret = Bytes.zeros 256 ∧
      t.secretLen = 0#16) ∧
    t.phase = .idle ∧ t.err = 0#4 ∧ t.done = true

/-- R91, R116, R157: while a command is in progress an engine step is always possible and brings its completion nearer by
exactly one, and no host step brings it nearer or farther. -/
def Obligations.OnlyEngineStepsAdvanceACommand : Prop :=
  ∀ s, SeqInv s → busy s = true →
    1 ≤ stepsLeft s ∧
    ((chooseTurn s).1 = .engine → ∃ t, step s = .next t ∧ stepsLeft t + 1 = stepsLeft s ∧
      (t.phase = .idle ↔ stepsLeft s = 1)) ∧
    (∀ t, (chooseTurn s).1 = .host → step s = .next t → stepsLeft t = stepsLeft s ∧ t.phase = s.phase)

/-- R156, R157: whatever the host does in between, a command in progress is still in progress after fewer engine steps
than it needs, and is complete with code 0 right after the last of them. That the interleaving is data in State is the
model's choice, log entry 1. -/
def Obligations.CommandCompletesUnderAnyInterleaving : Prop :=
  (∀ (turns rest : List Turn) (s t : State), SeqInv s → busy s = true → s.sched = turns ++ rest → .reset ∉ turns →
    turns.count .engine < stepsLeft s → runSteps turns.length s = .next t →
    t.phase = s.phase ∧ stepsLeft t + turns.count .engine = stepsLeft s ∧ t.sched = rest) ∧
  (∀ (turns rest : List Turn) (s t : State), SeqInv s → busy s = true → s.sched = turns ++ .engine :: rest →
    .reset ∉ turns → turns.count .engine + 1 = stepsLeft s → runSteps (turns.length + 1) s = .next t →
    t.phase = .idle ∧ t.err = 0#4 ∧ t.done = true)

/-! ## Fairness

That fairness is built into the choice of the next agent, the free number of host steps between two engine steps being
finite, is the model's choice, log entry 2; the schedule is log entry 1. -/

/-- R156: every execution is weakly fair to the engine, and from every point where its step is enabled an agent other
than the host comes to move. Model's choice: log entries 1 and 2. -/
def Obligations.EveryExecutionIsWeaklyFair : Prop :=
  ∀ r : Nat → State, Execution r →
    WeaklyFair r ∧ ∀ k, engineEnabled (r k) → ∃ j, k ≤ j ∧ (chooseTurn (r j)).1 ≠ .host

/-- R156, R157: a command in progress comes to its last step after finitely many steps, with no fairness premise, unless
the host's program faults before. Model's choice: log entries 1 and 2. -/
def Obligations.EveryCommandCompletes : Prop :=
  ∀ s, SeqInv s → busy s = true → .reset ∉ s.sched →
    ∃ k, (∃ t, runSteps k s = .next t ∧ t.phase = s.phase ∧ completesNext t) ∨ ∃ f, runSteps k s = .fault f

/-- R156: a POLL for BUSY = 0 ends after finitely many steps, none of them a fault. Model's choice: log entries 1
and 2. -/
def Obligations.PollForIdleEnds : Prop :=
  ∀ (s : State) (rest : List HostOp), SeqInv s → s.program = asmWait :: rest →
    ∃ k t, runSteps k s = .next t ∧ t.program = rest ∧ busy t = false

/-! ## The functions -/

/-- R72: the padding, its least number of zeros, and the number of blocks. For messages of R71's lengths, below 2^61
bytes; that a longer one takes its length field modulo 2^64 is the model's choice, log entry 14. -/
def Obligations.PaddingFillsWholeBlocks : Prop :=
  ∀ m : List Byte,
    (∃ k, padMessage m = m ++ [0x80#8] ++ List.replicate k 0#8 ++ be64 (BitVec.ofNat 64 (8 * m.length)) ∧
      (m.length + 1 + k + 8) % 64 = 0 ∧ ∀ j, j < k → (m.length + 1 + j + 8) % 64 ≠ 0) ∧
    (m.length ≤ 55 → (padMessage m).length = 64) ∧
    (56 ≤ m.length → m.length ≤ 119 → (padMessage m).length = 128) ∧
    (120 ≤ m.length → m.length ≤ 183 → (padMessage m).length = 192)

/-- R103: the hash of a 32-byte input is one compression of the one padded block, from the initial value. -/
def Obligations.RoundHashIsOneCompression : Prop :=
  ∀ x : Bytes 32,
    sha256 x.data = digestBytes (compress initialHash
      (x.data ++ [0x80#8] ++ List.replicate 23 0#8 ++ [0x00#8, 0x00#8, 0x00#8, 0x00#8, 0x00#8, 0x00#8, 0x01#8, 0x00#8]))

/-- R83: each HMAC of this block may start from the two states after the first blocks, which depend on the key alone. -/
def Obligations.HmacFromMidstates : Prop :=
  ∀ (k0 : Bytes 64) (m : List Byte), m.length ≤ 55 →
    hmacK0 k0 m =
      digestBytes (compress (compress initialHash (xorBytes k0 opad).data)
        ((digestBytes (compress (compress initialHash (xorBytes k0 ipad).data)
            (m ++ [0x80#8] ++ List.replicate (55 - m.length) 0#8 ++ be64 (BitVec.ofNat 64 (8 * (64 + m.length)))))).data ++
          [0x80#8] ++ List.replicate 23 0#8 ++ be64 (BitVec.ofNat 64 768)))

/-- R80: the key preparation, the empty key, and the trailing zeros that make no difference. -/
def Obligations.KeyPreparation : Prop :=
  (∀ k : List Byte, k.length ≤ 64 → (hkey k).data = k ++ List.replicate (64 - k.length) 0#8) ∧
  (∀ k : List Byte, 64 < k.length → (hkey k).data = (sha256 k).data ++ List.replicate 32 0#8) ∧
  hkey [] = Bytes.zeros 64 ∧
  (∀ (k : List Byte) (z : Nat), k.length + z ≤ 64 → hkey (k ++ List.replicate z 0#8) = hkey k)

/-- R85: the fourteen blocks of the key material and the views they make. -/
def Obligations.KeyMaterialIsFourteenBlocks : Prop :=
  ∀ secret : List Byte,
    (∀ i : Fin 14, sliceBytes (deriveKey secret) (32 * i.val) 32 (by simp only [DKLEN, ROUNDS, HALF]; omega) =
      pbkdf2Block secret SALT 500 (i.val + 1)) ∧
    prekey (deriveKey secret) = appendBytes (pbkdf2Block secret SALT 500 1) (pbkdf2Block secret SALT 500 2) ∧
    (∀ r : Fin 10, roundKey (deriveKey secret) r = pbkdf2Block secret SALT 500 (r.val + 3)) ∧
    postkey (deriveKey secret) = appendBytes (pbkdf2Block secret SALT 500 13) (pbkdf2Block secret SALT 500 14) ∧
    be32 1#32 = [0x00#8, 0x00#8, 0x00#8, 0x01#8] ∧ be32 14#32 = [0x00#8, 0x00#8, 0x00#8, 0x0E#8]

/-- R32: the views tile KM, with no gap and no overlap. -/
def Obligations.ViewsTileTheKeyMaterial : Prop :=
  ∀ km : Bytes 448,
    (prekey km).data ++ ((List.finRange 10).map fun i => (roundKey km i).data).flatten ++ (postkey km).data = km.data

/-- R97, R99, R100: xorBytes byte by byte, the halves of a block, and the swap, its own inverse. -/
def Obligations.ByteVectorPrimitives : Prop :=
  (∀ (n : Nat) (a b : Bytes n) (i : Fin n), (xorBytes a b).get i = a.get i ^^^ b.get i) ∧
  (∀ b : Bytes 64, (leftHalf b).data = b.data.take 32 ∧ (rightHalf b).data = b.data.drop 32) ∧
  (∀ b : Bytes 64, (swapHalves b).data = b.data.drop 32 ++ b.data.take 32 ∧ swapHalves (swapHalves b) = b)

/-- R107: decryption inverts encryption and encryption inverts decryption, for every key material and block. -/
def Obligations.DecryptionInvertsEncryption : Prop :=
  (∀ (km : Bytes 448) (p : Bytes 64), decryptBlock km (encryptBlock km p) = p) ∧
  (∀ (km : Bytes 448) (c : Bytes 64), encryptBlock km (decryptBlock km c) = c) ∧
  (∀ (x : Bytes 64) (k : Bytes 32), cipherRound (swapHalves (cipherRound x k)) k = swapHalves x)
end

