-- ==== Sys2Proof/Laws/Bytes.lean ====
section
/-! SUPPORT. The small lemmas of the byte-string operations: extensionality, what each operation reads, the algebra of
xorBytes, slices of appended and of patched strings, the halves of a block. -/

namespace Sys2Proof.Machine

open Config

theorem bytes_ext {n : Nat} {a b : Bytes n} (h : a.data = b.data) : a = b := by
  cases a; cases b; simpa using h

@[simp] theorem bytes_length {n : Nat} (a : Bytes n) : a.data.length = n := a.len

@[simp] theorem rep_data (v : Byte) (n : Nat) : (Bytes.rep v n).data = List.replicate n v := rfl

@[simp] theorem zeros_data (n : Nat) : (Bytes.zeros n).data = List.replicate n 0#8 := rfl

theorem get_eq {n : Nat} (a : Bytes n) (i : Fin n) : a.get i = a.data[i.val]'(by rw [a.len]; exact i.isLt) := rfl

theorem bytes_ext_get {n : Nat} {a b : Bytes n} (h : ∀ i : Fin n, a.get i = b.get i) : a = b := by
  apply bytes_ext
  apply List.ext_getElem (by simp)
  intro i hi _
  exact h ⟨i, by simpa using hi⟩

@[simp] theorem get_zeros {n : Nat} (i : Fin n) : (Bytes.zeros n).get i = 0#8 := by simp [get_eq]

@[simp] theorem get_rep {n : Nat} (v : Byte) (i : Fin n) : (Bytes.rep v n).get i = v := by simp [get_eq]

@[simp] theorem get_xorBytes {n : Nat} (a b : Bytes n) (i : Fin n) : (xorBytes a b).get i = a.get i ^^^ b.get i := by
  simp [get_eq, xorBytes]

theorem get_sliceBytes {n : Nat} (b : Bytes n) (at_ k : Nat) (h : at_ + k ≤ n) (i : Fin k) :
    (sliceBytes b at_ k h).get i = b.get ⟨at_ + i.val, by omega⟩ := by
  simp [get_eq, sliceBytes]

theorem get_appendBytes_left {m n : Nat} (a : Bytes m) (b : Bytes n) (i : Fin (m + n)) (h : i.val < m) :
    (appendBytes a b).get i = a.get ⟨i.val, h⟩ := by
  simp [get_eq, appendBytes, List.getElem_append_left, h]

theorem get_appendBytes_right {m n : Nat} (a : Bytes m) (b : Bytes n) (i : Fin (m + n)) (h : m ≤ i.val) :
    (appendBytes a b).get i = b.get ⟨i.val - m, by omega⟩ := by
  simp [get_eq, appendBytes, List.getElem_append_right, h]

theorem get_patchBytes {n k : Nat} (b : Bytes n) (at_ : Nat) (v : Bytes k) (h : at_ + k ≤ n) (i : Fin n) :
    (patchBytes b at_ v h).get i =
      if g : at_ ≤ i.val ∧ i.val < at_ + k then v.get ⟨i.val - at_, by omega⟩ else b.get i := by
  have hb := b.len
  have hv := v.len
  simp only [get_eq, patchBytes, List.getElem_append, List.length_append, List.length_take, List.getElem_take,
    List.getElem_drop]
  split
  · split
    · rw [dif_neg (by omega)]
    · rw [dif_pos (by omega)]; congr 1; omega
  · rw [dif_neg (by omega)]; congr 1; omega

@[simp] theorem xorBytes_self {n : Nat} (a : Bytes n) : xorBytes a a = Bytes.zeros n := bytes_ext_get (by simp)

@[simp] theorem xorBytes_zeros {n : Nat} (a : Bytes n) : xorBytes a (Bytes.zeros n) = a := bytes_ext_get (by simp)

theorem xorBytes_comm {n : Nat} (a b : Bytes n) : xorBytes a b = xorBytes b a :=
  bytes_ext_get (by simp [BitVec.xor_comm])

theorem xorBytes_assoc {n : Nat} (a b c : Bytes n) : xorBytes (xorBytes a b) c = xorBytes a (xorBytes b c) :=
  bytes_ext_get (by simp [BitVec.xor_assoc])

@[simp] theorem xorBytes_cancel {n : Nat} (a b : Bytes n) : xorBytes (xorBytes a b) b = a := by
  rw [xorBytes_assoc, xorBytes_self, xorBytes_zeros]

theorem sliceBytes_patch_same {n k : Nat} (b : Bytes n) (at_ : Nat) (v : Bytes k) (h : at_ + k ≤ n) :
    sliceBytes (patchBytes b at_ v h) at_ k h = v :=
  bytes_ext_get fun i => by
    rw [get_sliceBytes, get_patchBytes, dif_pos (by simp)]
    congr 1; ext; simp

theorem sliceBytes_patch_other {n k m : Nat} (b : Bytes n) (at_ : Nat) (v : Bytes k) (h : at_ + k ≤ n) (lo : Nat)
    (hm : lo + m ≤ n) (hd : lo + m ≤ at_ ∨ at_ + k ≤ lo) :
    sliceBytes (patchBytes b at_ v h) lo m hm = sliceBytes b lo m hm :=
  bytes_ext_get fun i => by
    rw [get_sliceBytes, get_sliceBytes, get_patchBytes, dif_neg (by simp only; omega)]

/-- The four bytes of a word made of four bytes. -/
theorem bytes_of_word (b3 b2 b1 b0 : Byte) (v : Word)
    (hv : v = (b3.setWidth 32 <<< 24) ||| (b2.setWidth 32 <<< 16) ||| (b1.setWidth 32 <<< 8) ||| b0.setWidth 32) :
    v.extractLsb' 0 8 = b0 ∧ v.extractLsb' 8 8 = b1 ∧ v.extractLsb' 16 8 = b2 ∧ v.extractLsb' 24 8 = b3 := by
  have high : ∀ (b : Byte) (n : Nat), 8 ≤ n → b.getLsbD n = false := fun b n hn => BitVec.getLsbD_of_ge _ _ hn
  subst hv
  refine ⟨?_, ?_, ?_, ?_⟩ <;> ext j hj <;> simp <;> grind

theorem get_le32bytes (w : Word) (i : Fin 4) : (le32bytes w).get i = w.extractLsb' (8 * i.val) 8 := by
  fin_cases i <;> rfl

/-- `le32` puts byte `i` in bits `8i+7 : 8i` (R47). -/
theorem le32_byte (b : Bytes 4) (i : Fin 4) : (le32 b).extractLsb' (8 * i.val) 8 = b.get i := by
  obtain ⟨h0, h1, h2, h3⟩ := bytes_of_word (b.get 3) (b.get 2) (b.get 1) (b.get 0) (le32 b) rfl
  fin_cases i
  exacts [h0, h1, h2, h3]

@[simp] theorem leftHalf_joinHalves (l r : Bytes HALF) : leftHalf (joinHalves l r) = l :=
  bytes_ext (by simp [leftHalf, joinHalves, sliceBytes, appendBytes])

@[simp] theorem rightHalf_joinHalves (l r : Bytes HALF) : rightHalf (joinHalves l r) = r :=
  bytes_ext (by simp [rightHalf, joinHalves, sliceBytes, appendBytes])

@[simp] theorem joinHalves_halves (b : Bytes BLOCK) : joinHalves (leftHalf b) (rightHalf b) = b :=
  bytes_ext (by
    have h : (b.data.drop HALF).take HALF = b.data.drop HALF := List.take_of_length_le (by rw [List.length_drop, b.len]; decide)
    simp [leftHalf, rightHalf, joinHalves, sliceBytes, appendBytes, h])

@[simp] theorem leftHalf_swapHalves (b : Bytes BLOCK) : leftHalf (swapHalves b) = rightHalf b := by simp [swapHalves]

@[simp] theorem rightHalf_swapHalves (b : Bytes BLOCK) : rightHalf (swapHalves b) = leftHalf b := by simp [swapHalves]

@[simp] theorem leftHalf_cipherRound (b : Bytes BLOCK) (k : Bytes HALF) : leftHalf (cipherRound b k) = rightHalf b := by
  simp [cipherRound]

@[simp] theorem rightHalf_cipherRound (b : Bytes BLOCK) (k : Bytes HALF) :
    rightHalf (cipherRound b k) = xorBytes (leftHalf b) (sha256 (xorBytes (rightHalf b) k).data) := by
  simp [cipherRound]

@[simp] theorem length_roundKeys (km : Bytes DKLEN) : (roundKeys km).length = ROUNDS := by simp [roundKeys]

theorem getElem_roundKeys (km : Bytes DKLEN) (i : Fin ROUNDS) :
    (roundKeys km)[i.val]'(by simp) = roundKey km i := by
  simp [roundKeys]

end Sys2Proof.Machine
end

