-- ==== Sys2Proof/Laws/State.lean ====
section
/-! SUPPORT. What each shared update of State leaves in each field: one lemma per field per update, true by rfl. -/

namespace Sys2Proof.Machine

open Config

@[simp] theorem complete_ie (c : Code) (s : State) : (complete c s).ie = s.ie := rfl
@[simp] theorem complete_done (c : Code) (s : State) : (complete c s).done = true := rfl
@[simp] theorem complete_keyValid (c : Code) (s : State) : (complete c s).keyValid = s.keyValid := rfl
@[simp] theorem complete_ovr (c : Code) (s : State) : (complete c s).ovr = s.ovr := rfl
@[simp] theorem complete_err (c : Code) (s : State) : (complete c s).err = codeBits c := rfl
@[simp] theorem complete_lastOp (c : Code) (s : State) : (complete c s).lastOp = s.lastOp := rfl
@[simp] theorem complete_secretLen (c : Code) (s : State) : (complete c s).secretLen = s.secretLen := rfl
@[simp] theorem complete_blockLen (c : Code) (s : State) : (complete c s).blockLen = s.blockLen := rfl
@[simp] theorem complete_secret (c : Code) (s : State) : (complete c s).secret = s.secret := rfl
@[simp] theorem complete_blockIn (c : Code) (s : State) : (complete c s).blockIn = s.blockIn := rfl
@[simp] theorem complete_blockOut (c : Code) (s : State) : (complete c s).blockOut = s.blockOut := rfl
@[simp] theorem complete_km (c : Code) (s : State) : (complete c s).km = s.km := rfl
@[simp] theorem complete_phase (c : Code) (s : State) : (complete c s).phase = .idle := rfl
@[simp] theorem complete_ksK0 (c : Code) (s : State) : (complete c s).ksK0 = Bytes.zeros BLOCK := rfl
@[simp] theorem complete_ksBlk (c : Code) (s : State) : (complete c s).ksBlk = 0 := rfl
@[simp] theorem complete_ksIter (c : Code) (s : State) : (complete c s).ksIter = 0 := rfl
@[simp] theorem complete_ksU (c : Code) (s : State) : (complete c s).ksU = Bytes.zeros HLEN := rfl
@[simp] theorem complete_ksT (c : Code) (s : State) : (complete c s).ksT = Bytes.zeros HLEN := rfl
@[simp] theorem complete_ciW (c : Code) (s : State) : (complete c s).ciW = Bytes.zeros BLOCK := rfl
@[simp] theorem complete_ciRnd (c : Code) (s : State) : (complete c s).ciRnd = 0 := rfl
@[simp] theorem complete_program (c : Code) (s : State) : (complete c s).program = s.program := rfl
@[simp] theorem complete_obs (c : Code) (s : State) : (complete c s).obs = s.obs := rfl
@[simp] theorem complete_sched (c : Code) (s : State) : (complete c s).sched = s.sched := rfl
@[simp] theorem complete_waited (c : Code) (s : State) : (complete c s).waited = s.waited := rfl
@[simp] theorem complete_tick (c : Code) (s : State) : (complete c s).tick = s.tick := rfl

@[simp] theorem dropWrite_ie (s : State) : (dropWrite s).ie = s.ie := rfl
@[simp] theorem dropWrite_done (s : State) : (dropWrite s).done = s.done := rfl
@[simp] theorem dropWrite_keyValid (s : State) : (dropWrite s).keyValid = s.keyValid := rfl
@[simp] theorem dropWrite_ovr (s : State) : (dropWrite s).ovr = true := rfl
@[simp] theorem dropWrite_err (s : State) : (dropWrite s).err = s.err := rfl
@[simp] theorem dropWrite_lastOp (s : State) : (dropWrite s).lastOp = s.lastOp := rfl
@[simp] theorem dropWrite_secretLen (s : State) : (dropWrite s).secretLen = s.secretLen := rfl
@[simp] theorem dropWrite_blockLen (s : State) : (dropWrite s).blockLen = s.blockLen := rfl
@[simp] theorem dropWrite_secret (s : State) : (dropWrite s).secret = s.secret := rfl
@[simp] theorem dropWrite_blockIn (s : State) : (dropWrite s).blockIn = s.blockIn := rfl
@[simp] theorem dropWrite_blockOut (s : State) : (dropWrite s).blockOut = s.blockOut := rfl
@[simp] theorem dropWrite_km (s : State) : (dropWrite s).km = s.km := rfl
@[simp] theorem dropWrite_phase (s : State) : (dropWrite s).phase = s.phase := rfl
@[simp] theorem dropWrite_ksK0 (s : State) : (dropWrite s).ksK0 = s.ksK0 := rfl
@[simp] theorem dropWrite_ksBlk (s : State) : (dropWrite s).ksBlk = s.ksBlk := rfl
@[simp] theorem dropWrite_ksIter (s : State) : (dropWrite s).ksIter = s.ksIter := rfl
@[simp] theorem dropWrite_ksU (s : State) : (dropWrite s).ksU = s.ksU := rfl
@[simp] theorem dropWrite_ksT (s : State) : (dropWrite s).ksT = s.ksT := rfl
@[simp] theorem dropWrite_ciW (s : State) : (dropWrite s).ciW = s.ciW := rfl
@[simp] theorem dropWrite_ciRnd (s : State) : (dropWrite s).ciRnd = s.ciRnd := rfl
@[simp] theorem dropWrite_program (s : State) : (dropWrite s).program = s.program := rfl
@[simp] theorem dropWrite_obs (s : State) : (dropWrite s).obs = s.obs := rfl
@[simp] theorem dropWrite_sched (s : State) : (dropWrite s).sched = s.sched := rfl
@[simp] theorem dropWrite_waited (s : State) : (dropWrite s).waited = s.waited := rfl
@[simp] theorem dropWrite_tick (s : State) : (dropWrite s).tick = s.tick := rfl

@[simp] theorem startLong_ie (p : Phase) (s : State) : (startLong p s).ie = s.ie := rfl
@[simp] theorem startLong_done (p : Phase) (s : State) : (startLong p s).done = false := rfl
@[simp] theorem startLong_keyValid (p : Phase) (s : State) : (startLong p s).keyValid = s.keyValid := rfl
@[simp] theorem startLong_ovr (p : Phase) (s : State) : (startLong p s).ovr = s.ovr := rfl
@[simp] theorem startLong_err (p : Phase) (s : State) : (startLong p s).err = 0#4 := rfl
@[simp] theorem startLong_lastOp (p : Phase) (s : State) : (startLong p s).lastOp = s.lastOp := rfl
@[simp] theorem startLong_secretLen (p : Phase) (s : State) : (startLong p s).secretLen = s.secretLen := rfl
@[simp] theorem startLong_blockLen (p : Phase) (s : State) : (startLong p s).blockLen = s.blockLen := rfl
@[simp] theorem startLong_secret (p : Phase) (s : State) : (startLong p s).secret = s.secret := rfl
@[simp] theorem startLong_blockIn (p : Phase) (s : State) : (startLong p s).blockIn = s.blockIn := rfl
@[simp] theorem startLong_blockOut (p : Phase) (s : State) : (startLong p s).blockOut = s.blockOut := rfl
@[simp] theorem startLong_km (p : Phase) (s : State) : (startLong p s).km = s.km := rfl
@[simp] theorem startLong_phase (p : Phase) (s : State) : (startLong p s).phase = p := rfl
@[simp] theorem startLong_ksK0 (p : Phase) (s : State) : (startLong p s).ksK0 = s.ksK0 := rfl
@[simp] theorem startLong_ksBlk (p : Phase) (s : State) : (startLong p s).ksBlk = s.ksBlk := rfl
@[simp] theorem startLong_ksIter (p : Phase) (s : State) : (startLong p s).ksIter = s.ksIter := rfl
@[simp] theorem startLong_ksU (p : Phase) (s : State) : (startLong p s).ksU = s.ksU := rfl
@[simp] theorem startLong_ksT (p : Phase) (s : State) : (startLong p s).ksT = s.ksT := rfl
@[simp] theorem startLong_ciW (p : Phase) (s : State) : (startLong p s).ciW = s.ciW := rfl
@[simp] theorem startLong_ciRnd (p : Phase) (s : State) : (startLong p s).ciRnd = s.ciRnd := rfl
@[simp] theorem startLong_program (p : Phase) (s : State) : (startLong p s).program = s.program := rfl
@[simp] theorem startLong_obs (p : Phase) (s : State) : (startLong p s).obs = s.obs := rfl
@[simp] theorem startLong_sched (p : Phase) (s : State) : (startLong p s).sched = s.sched := rfl
@[simp] theorem startLong_waited (p : Phase) (s : State) : (startLong p s).waited = s.waited := rfl
@[simp] theorem startLong_tick (p : Phase) (s : State) : (startLong p s).tick = s.tick := rfl

@[simp] theorem assertReset_ie (s : State) : (assertReset s).ie = State.reset.ie := rfl
@[simp] theorem assertReset_done (s : State) : (assertReset s).done = State.reset.done := rfl
@[simp] theorem assertReset_keyValid (s : State) : (assertReset s).keyValid = State.reset.keyValid := rfl
@[simp] theorem assertReset_ovr (s : State) : (assertReset s).ovr = State.reset.ovr := rfl
@[simp] theorem assertReset_err (s : State) : (assertReset s).err = State.reset.err := rfl
@[simp] theorem assertReset_lastOp (s : State) : (assertReset s).lastOp = State.reset.lastOp := rfl
@[simp] theorem assertReset_secretLen (s : State) : (assertReset s).secretLen = State.reset.secretLen := rfl
@[simp] theorem assertReset_blockLen (s : State) : (assertReset s).blockLen = State.reset.blockLen := rfl
@[simp] theorem assertReset_secret (s : State) : (assertReset s).secret = State.reset.secret := rfl
@[simp] theorem assertReset_blockIn (s : State) : (assertReset s).blockIn = State.reset.blockIn := rfl
@[simp] theorem assertReset_blockOut (s : State) : (assertReset s).blockOut = State.reset.blockOut := rfl
@[simp] theorem assertReset_km (s : State) : (assertReset s).km = State.reset.km := rfl
@[simp] theorem assertReset_phase (s : State) : (assertReset s).phase = State.reset.phase := rfl
@[simp] theorem assertReset_ksK0 (s : State) : (assertReset s).ksK0 = State.reset.ksK0 := rfl
@[simp] theorem assertReset_ksBlk (s : State) : (assertReset s).ksBlk = State.reset.ksBlk := rfl
@[simp] theorem assertReset_ksIter (s : State) : (assertReset s).ksIter = State.reset.ksIter := rfl
@[simp] theorem assertReset_ksU (s : State) : (assertReset s).ksU = State.reset.ksU := rfl
@[simp] theorem assertReset_ksT (s : State) : (assertReset s).ksT = State.reset.ksT := rfl
@[simp] theorem assertReset_ciW (s : State) : (assertReset s).ciW = State.reset.ciW := rfl
@[simp] theorem assertReset_ciRnd (s : State) : (assertReset s).ciRnd = State.reset.ciRnd := rfl
@[simp] theorem assertReset_program (s : State) : (assertReset s).program = s.program := rfl
@[simp] theorem assertReset_obs (s : State) : (assertReset s).obs = s.obs := rfl
@[simp] theorem assertReset_sched (s : State) : (assertReset s).sched = s.sched := rfl
@[simp] theorem assertReset_waited (s : State) : (assertReset s).waited = s.waited := rfl
@[simp] theorem assertReset_tick (s : State) : (assertReset s).tick = s.tick := rfl

@[simp] theorem hw_ie (s : State) : s.hw.ie = s.ie := rfl
@[simp] theorem hw_done (s : State) : s.hw.done = s.done := rfl
@[simp] theorem hw_keyValid (s : State) : s.hw.keyValid = s.keyValid := rfl
@[simp] theorem hw_ovr (s : State) : s.hw.ovr = s.ovr := rfl
@[simp] theorem hw_err (s : State) : s.hw.err = s.err := rfl
@[simp] theorem hw_lastOp (s : State) : s.hw.lastOp = s.lastOp := rfl
@[simp] theorem hw_secretLen (s : State) : s.hw.secretLen = s.secretLen := rfl
@[simp] theorem hw_blockLen (s : State) : s.hw.blockLen = s.blockLen := rfl
@[simp] theorem hw_secret (s : State) : s.hw.secret = s.secret := rfl
@[simp] theorem hw_blockIn (s : State) : s.hw.blockIn = s.blockIn := rfl
@[simp] theorem hw_blockOut (s : State) : s.hw.blockOut = s.blockOut := rfl
@[simp] theorem hw_km (s : State) : s.hw.km = s.km := rfl
@[simp] theorem hw_phase (s : State) : s.hw.phase = s.phase := rfl
@[simp] theorem hw_ksK0 (s : State) : s.hw.ksK0 = s.ksK0 := rfl
@[simp] theorem hw_ksBlk (s : State) : s.hw.ksBlk = s.ksBlk := rfl
@[simp] theorem hw_ksIter (s : State) : s.hw.ksIter = s.ksIter := rfl
@[simp] theorem hw_ksU (s : State) : s.hw.ksU = s.ksU := rfl
@[simp] theorem hw_ksT (s : State) : s.hw.ksT = s.ksT := rfl
@[simp] theorem hw_ciW (s : State) : s.hw.ciW = s.ciW := rfl
@[simp] theorem hw_ciRnd (s : State) : s.hw.ciRnd = s.ciRnd := rfl
@[simp] theorem hw_program (s : State) : s.hw.program = [] := rfl
@[simp] theorem hw_obs (s : State) : s.hw.obs = [] := rfl
@[simp] theorem hw_sched (s : State) : s.hw.sched = [] := rfl
@[simp] theorem hw_waited (s : State) : s.hw.waited = 0 := rfl
@[simp] theorem hw_tick (s : State) : s.hw.tick = 0 := rfl

@[simp] theorem observe_ie (v : Word) (s : State) : (observe v s).ie = s.ie := rfl
@[simp] theorem observe_done (v : Word) (s : State) : (observe v s).done = s.done := rfl
@[simp] theorem observe_keyValid (v : Word) (s : State) : (observe v s).keyValid = s.keyValid := rfl
@[simp] theorem observe_ovr (v : Word) (s : State) : (observe v s).ovr = s.ovr := rfl
@[simp] theorem observe_err (v : Word) (s : State) : (observe v s).err = s.err := rfl
@[simp] theorem observe_lastOp (v : Word) (s : State) : (observe v s).lastOp = s.lastOp := rfl
@[simp] theorem observe_secretLen (v : Word) (s : State) : (observe v s).secretLen = s.secretLen := rfl
@[simp] theorem observe_blockLen (v : Word) (s : State) : (observe v s).blockLen = s.blockLen := rfl
@[simp] theorem observe_secret (v : Word) (s : State) : (observe v s).secret = s.secret := rfl
@[simp] theorem observe_blockIn (v : Word) (s : State) : (observe v s).blockIn = s.blockIn := rfl
@[simp] theorem observe_blockOut (v : Word) (s : State) : (observe v s).blockOut = s.blockOut := rfl
@[simp] theorem observe_km (v : Word) (s : State) : (observe v s).km = s.km := rfl
@[simp] theorem observe_phase (v : Word) (s : State) : (observe v s).phase = s.phase := rfl
@[simp] theorem observe_ksK0 (v : Word) (s : State) : (observe v s).ksK0 = s.ksK0 := rfl
@[simp] theorem observe_ksBlk (v : Word) (s : State) : (observe v s).ksBlk = s.ksBlk := rfl
@[simp] theorem observe_ksIter (v : Word) (s : State) : (observe v s).ksIter = s.ksIter := rfl
@[simp] theorem observe_ksU (v : Word) (s : State) : (observe v s).ksU = s.ksU := rfl
@[simp] theorem observe_ksT (v : Word) (s : State) : (observe v s).ksT = s.ksT := rfl
@[simp] theorem observe_ciW (v : Word) (s : State) : (observe v s).ciW = s.ciW := rfl
@[simp] theorem observe_ciRnd (v : Word) (s : State) : (observe v s).ciRnd = s.ciRnd := rfl
@[simp] theorem observe_program (v : Word) (s : State) : (observe v s).program = s.program := rfl
@[simp] theorem observe_obs (v : Word) (s : State) : (observe v s).obs = s.obs ++ [v] := rfl
@[simp] theorem observe_sched (v : Word) (s : State) : (observe v s).sched = s.sched := rfl
@[simp] theorem observe_waited (v : Word) (s : State) : (observe v s).waited = s.waited := rfl
@[simp] theorem observe_tick (v : Word) (s : State) : (observe v s).tick = s.tick := rfl

@[simp] theorem writeStatus_ie (w : Word) (s : State) : (writeStatus w s).ie = s.ie := rfl
@[simp] theorem writeStatus_done (w : Word) (s : State) : (writeStatus w s).done = (s.done && !w.getLsbD 1) := rfl
@[simp] theorem writeStatus_keyValid (w : Word) (s : State) : (writeStatus w s).keyValid = s.keyValid := rfl
@[simp] theorem writeStatus_ovr (w : Word) (s : State) : (writeStatus w s).ovr = (s.ovr && !w.getLsbD 3) := rfl
@[simp] theorem writeStatus_err (w : Word) (s : State) : (writeStatus w s).err = s.err := rfl
@[simp] theorem writeStatus_lastOp (w : Word) (s : State) : (writeStatus w s).lastOp = s.lastOp := rfl
@[simp] theorem writeStatus_secretLen (w : Word) (s : State) : (writeStatus w s).secretLen = s.secretLen := rfl
@[simp] theorem writeStatus_blockLen (w : Word) (s : State) : (writeStatus w s).blockLen = s.blockLen := rfl
@[simp] theorem writeStatus_secret (w : Word) (s : State) : (writeStatus w s).secret = s.secret := rfl
@[simp] theorem writeStatus_blockIn (w : Word) (s : State) : (writeStatus w s).blockIn = s.blockIn := rfl
@[simp] theorem writeStatus_blockOut (w : Word) (s : State) : (writeStatus w s).blockOut = s.blockOut := rfl
@[simp] theorem writeStatus_km (w : Word) (s : State) : (writeStatus w s).km = s.km := rfl
@[simp] theorem writeStatus_phase (w : Word) (s : State) : (writeStatus w s).phase = s.phase := rfl
@[simp] theorem writeStatus_ksK0 (w : Word) (s : State) : (writeStatus w s).ksK0 = s.ksK0 := rfl
@[simp] theorem writeStatus_ksBlk (w : Word) (s : State) : (writeStatus w s).ksBlk = s.ksBlk := rfl
@[simp] theorem writeStatus_ksIter (w : Word) (s : State) : (writeStatus w s).ksIter = s.ksIter := rfl
@[simp] theorem writeStatus_ksU (w : Word) (s : State) : (writeStatus w s).ksU = s.ksU := rfl
@[simp] theorem writeStatus_ksT (w : Word) (s : State) : (writeStatus w s).ksT = s.ksT := rfl
@[simp] theorem writeStatus_ciW (w : Word) (s : State) : (writeStatus w s).ciW = s.ciW := rfl
@[simp] theorem writeStatus_ciRnd (w : Word) (s : State) : (writeStatus w s).ciRnd = s.ciRnd := rfl
@[simp] theorem writeStatus_program (w : Word) (s : State) : (writeStatus w s).program = s.program := rfl
@[simp] theorem writeStatus_obs (w : Word) (s : State) : (writeStatus w s).obs = s.obs := rfl
@[simp] theorem writeStatus_sched (w : Word) (s : State) : (writeStatus w s).sched = s.sched := rfl
@[simp] theorem writeStatus_waited (w : Word) (s : State) : (writeStatus w s).waited = s.waited := rfl
@[simp] theorem writeStatus_tick (w : Word) (s : State) : (writeStatus w s).tick = s.tick := rfl

@[simp] theorem writeCtrl_ie (w : Word) (s : State) : (writeCtrl w s).ie = w.getLsbD 0 := rfl
@[simp] theorem writeCtrl_done (w : Word) (s : State) : (writeCtrl w s).done = s.done := rfl
@[simp] theorem writeCtrl_keyValid (w : Word) (s : State) : (writeCtrl w s).keyValid = s.keyValid := rfl
@[simp] theorem writeCtrl_ovr (w : Word) (s : State) : (writeCtrl w s).ovr = s.ovr := rfl
@[simp] theorem writeCtrl_err (w : Word) (s : State) : (writeCtrl w s).err = s.err := rfl
@[simp] theorem writeCtrl_lastOp (w : Word) (s : State) : (writeCtrl w s).lastOp = s.lastOp := rfl
@[simp] theorem writeCtrl_secretLen (w : Word) (s : State) : (writeCtrl w s).secretLen = s.secretLen := rfl
@[simp] theorem writeCtrl_blockLen (w : Word) (s : State) : (writeCtrl w s).blockLen = s.blockLen := rfl
@[simp] theorem writeCtrl_secret (w : Word) (s : State) : (writeCtrl w s).secret = s.secret := rfl
@[simp] theorem writeCtrl_blockIn (w : Word) (s : State) : (writeCtrl w s).blockIn = s.blockIn := rfl
@[simp] theorem writeCtrl_blockOut (w : Word) (s : State) : (writeCtrl w s).blockOut = s.blockOut := rfl
@[simp] theorem writeCtrl_km (w : Word) (s : State) : (writeCtrl w s).km = s.km := rfl
@[simp] theorem writeCtrl_phase (w : Word) (s : State) : (writeCtrl w s).phase = s.phase := rfl
@[simp] theorem writeCtrl_ksK0 (w : Word) (s : State) : (writeCtrl w s).ksK0 = s.ksK0 := rfl
@[simp] theorem writeCtrl_ksBlk (w : Word) (s : State) : (writeCtrl w s).ksBlk = s.ksBlk := rfl
@[simp] theorem writeCtrl_ksIter (w : Word) (s : State) : (writeCtrl w s).ksIter = s.ksIter := rfl
@[simp] theorem writeCtrl_ksU (w : Word) (s : State) : (writeCtrl w s).ksU = s.ksU := rfl
@[simp] theorem writeCtrl_ksT (w : Word) (s : State) : (writeCtrl w s).ksT = s.ksT := rfl
@[simp] theorem writeCtrl_ciW (w : Word) (s : State) : (writeCtrl w s).ciW = s.ciW := rfl
@[simp] theorem writeCtrl_ciRnd (w : Word) (s : State) : (writeCtrl w s).ciRnd = s.ciRnd := rfl
@[simp] theorem writeCtrl_program (w : Word) (s : State) : (writeCtrl w s).program = s.program := rfl
@[simp] theorem writeCtrl_obs (w : Word) (s : State) : (writeCtrl w s).obs = s.obs := rfl
@[simp] theorem writeCtrl_sched (w : Word) (s : State) : (writeCtrl w s).sched = s.sched := rfl
@[simp] theorem writeCtrl_waited (w : Word) (s : State) : (writeCtrl w s).waited = s.waited := rfl
@[simp] theorem writeCtrl_tick (w : Word) (s : State) : (writeCtrl w s).tick = s.tick := rfl

end Sys2Proof.Machine
end

