-- ==== Sys2Proof/Laws/Ops.lean ====
section
/-! SUPPORT. What each shared operation can do, said once: the busy gate, the issue of a command, the acceptance arms,
the engine's steps, a register access, a host instruction, the choice of the next agent, a step. -/

namespace Sys2Proof.Machine

open Config

theorem busy_eq_false {s : State} : busy s = false ↔ s.phase = .idle := by simp [busy]

theorem busy_eq_true {s : State} : busy s = true ↔ s.phase ≠ .idle := by simp [busy]

theorem unlessBusy_idle (f : State → State) {s : State} (h : busy s = false) : unlessBusy f s = f s := by
  simp [unlessBusy, h]

theorem unlessBusy_busy (f : State → State) {s : State} (h : busy s = true) : unlessBusy f s = dropWrite s := by
  simp [unlessBusy, h]

/-- The acceptance arm of a command (R129). -/
def acceptArm : Instr → State → State
  | .nop => acceptNop
  | .derive => acceptDerive
  | .encrypt => acceptEncrypt
  | .decrypt => acceptDecrypt
  | .zeroize => acceptZeroize

/-- Every command always answers a next state: dropped while busy, its acceptance arm otherwise. -/
theorem exec_eq (i : Instr) (s : State) :
    exec i s = .next (unlessBusy (fun s => acceptArm i { s with lastOp := opcodeOf i }) s) := by cases i <;> rfl

theorem exec_idle (i : Instr) {s : State} (h : busy s = false) :
    exec i s = .next (acceptArm i { s with lastOp := opcodeOf i }) := by rw [exec_eq, unlessBusy_idle _ h]

theorem exec_busy (i : Instr) {s : State} (h : busy s = true) : exec i s = .next (dropWrite s) := by
  rw [exec_eq, unlessBusy_busy _ h]

/-- What an accepted DERIVE does: rejected, or started. -/
theorem acceptDerive_cases (s : State) :
    (SECRET_MAX < s.secretLen.toNat ∧ acceptDerive s = complete .invalidSecret s) ∨
    (s.secretLen.toNat ≤ SECRET_MAX ∧
      acceptDerive s =
        { startLong .derive s with
          keyValid := false, ksK0 := hkey (secretOperand s), ksBlk := 1, ksIter := 1,
          ksU := Bytes.zeros HLEN, ksT := Bytes.zeros HLEN }) := by
  unfold acceptDerive
  split
  · exact .inl ⟨‹_›, rfl⟩
  · exact .inr ⟨Nat.le_of_not_lt ‹_›, rfl⟩

/-- What an accepted ENCRYPT does: NoKey, InvalidBlockSize, or started. -/
theorem acceptEncrypt_cases (s : State) :
    (s.keyValid = false ∧ acceptEncrypt s = complete .noKey s) ∨
    (s.keyValid = true ∧ s.blockLen.toNat ≠ BLOCK ∧ acceptEncrypt s = complete .invalidBlockSize s) ∨
    (s.keyValid = true ∧ s.blockLen.toNat = BLOCK ∧
      acceptEncrypt s = { startLong .enc s with ciW := xorBytes s.blockIn (prekey s.km), ciRnd := 0 }) := by
  unfold acceptEncrypt
  split
  · exact .inl ⟨‹_›, rfl⟩
  · split
    · exact .inr (.inl ⟨by simpa using ‹¬s.keyValid = false›, ‹_›, rfl⟩)
    · exact .inr (.inr ⟨by simpa using ‹¬s.keyValid = false›, by simpa using ‹¬s.blockLen.toNat ≠ BLOCK›, rfl⟩)

/-- What an accepted DECRYPT does: NoKey, InvalidBlockSize, or started. -/
theorem acceptDecrypt_cases (s : State) :
    (s.keyValid = false ∧ acceptDecrypt s = complete .noKey s) ∨
    (s.keyValid = true ∧ s.blockLen.toNat ≠ BLOCK ∧ acceptDecrypt s = complete .invalidBlockSize s) ∨
    (s.keyValid = true ∧ s.blockLen.toNat = BLOCK ∧
      acceptDecrypt s = { startLong .dec s with ciW := xorBytes s.blockIn (postkey s.km), ciRnd := 9 }) := by
  unfold acceptDecrypt
  split
  · exact .inl ⟨‹_›, rfl⟩
  · split
    · exact .inr (.inl ⟨by simpa using ‹¬s.keyValid = false›, ‹_›, rfl⟩)
    · exact .inr (.inr ⟨by simpa using ‹¬s.keyValid = false›, by simpa using ‹¬s.blockLen.toNat ≠ BLOCK›, rfl⟩)

/-- The three things one DERIVE step can do (R92). -/
theorem deriveStep_cases (s : State) :
    (∃ h : s.ksIter.val < ITER,
      deriveStep s = { s with ksU := deriveU s, ksT := deriveT s, ksIter := ⟨s.ksIter.val + 1, Nat.succ_lt_succ h⟩ }) ∨
    (s.ksIter.val = ITER ∧ ∃ h : s.ksBlk.val < KS_BLOCKS,
      deriveStep s =
        { s with
          km := deriveKm s, ksBlk := ⟨s.ksBlk.val + 1, Nat.succ_lt_succ h⟩, ksIter := 1,
          ksU := Bytes.zeros HLEN, ksT := Bytes.zeros HLEN }) ∨
    (s.ksIter.val = ITER ∧ s.ksBlk.val = KS_BLOCKS ∧ deriveStep s = deriveComplete { s with km := deriveKm s }) := by
  have hi := s.ksIter.isLt
  have hb := s.ksBlk.isLt
  unfold deriveStep
  split
  · exact .inl ⟨‹_›, rfl⟩
  · split
    · exact .inr (.inl ⟨by omega, ‹_›, rfl⟩)
    · exact .inr (.inr ⟨by omega, by omega, rfl⟩)

/-- The two things one ENCRYPT step can do (R111, R112). -/
theorem encStep_cases (s : State) :
    (∃ h : s.ciRnd.val < ROUNDS - 1,
      encStep s = { s with ciW := stepRound s, ciRnd := ⟨s.ciRnd.val + 1, Nat.add_lt_of_lt_sub h⟩ }) ∨
    (s.ciRnd.val = ROUNDS - 1 ∧ encStep s = encFinish (stepRound s) s) := by
  have hr := s.ciRnd.isLt
  unfold encStep
  split
  · exact .inl ⟨‹_›, rfl⟩
  · exact .inr ⟨by omega, rfl⟩

/-- The two things one DECRYPT step can do (R113, R114). -/
theorem decStep_cases (s : State) :
    (0 < s.ciRnd.val ∧
      decStep s =
        { s with
          ciW := stepRound s
          ciRnd := ⟨s.ciRnd.val - 1, Nat.lt_of_le_of_lt (Nat.sub_le _ _) s.ciRnd.isLt⟩ }) ∨
    (s.ciRnd.val = 0 ∧ decStep s = decFinish (stepRound s) s) := by
  unfold decStep
  split
  · exact .inl ⟨‹_›, rfl⟩
  · exact .inr ⟨Nat.eq_zero_of_not_pos ‹_›, rfl⟩

theorem engineStep_idle {s : State} (h : s.phase = .idle) : engineStep s = s := by simp [engineStep, h]

theorem engineStep_derive {s : State} (h : s.phase = .derive) : engineStep s = deriveStep s := by simp [engineStep, h]

theorem engineStep_enc {s : State} (h : s.phase = .enc) : engineStep s = encStep s := by simp [engineStep, h]

theorem engineStep_dec {s : State} (h : s.phase = .dec) : engineStep s = decStep s := by simp [engineStep, h]

/-- An issued word always answers a next state. -/
theorem issueWord_eq (w : Word) (s : State) :
    issueWord w s =
      .next (unlessBusy (fun s =>
        match decode w with
        | .ok i => acceptArm i { s with lastOp := opcodeOf i }
        | .error _ => complete .illegalCommand { s with lastOp := 0xF#4 }) s) := by
  unfold issueWord
  cases decode w with
  | ok i => exact exec_eq i s
  | error e => rfl

/-- What a register write can do (R42). -/
theorem writeReg_eq (r : Reg) (w : Word) (s : State) :
    writeReg r w s = .next (
      match r with
      | .id | .param0 | .param1 | .blockOut _ => s
      | .ctrl => writeCtrl w s
      | .status => writeStatus w s
      | .cmd => unlessBusy (fun s =>
        match decode w with
        | .ok i => acceptArm i { s with lastOp := opcodeOf i }
        | .error _ => complete .illegalCommand { s with lastOp := 0xF#4 }) s
      | .secretLen => unlessBusy (storeSecretLen w) s
      | .blockLen => unlessBusy (storeBlockLen w) s
      | .secret k => unlessBusy (storeSecret k w) s
      | .blockIn k => unlessBusy (storeBlockIn k w) s) := by
  cases r <;> first | rfl | exact issueWord_eq w s

theorem accessReg_some {off : BitVec 12} {size : Nat} {r : Reg} (h : accessReg off size = some r) :
    size = 4 ∧ off.toNat % 4 = 0 ∧ regOfWord (off.toNat / 4) = some r := by
  unfold accessReg at h
  split at h
  · exact ⟨‹_ ∧ _›.1, ‹_ ∧ _›.2, h⟩
  · cases h

/-- A bus write that answers a next state reached a register. -/
theorem busWrite_next {off : BitVec 12} {size : Nat} {w : Word} {s t : State} (h : busWrite off size w s = .next t) :
    ∃ r, accessReg off size = some r ∧ writeReg r w s = .next t := by
  unfold busWrite at h
  split at h
  · exact ⟨_, ‹_›, h⟩
  · cases h

/-- The next agent's choice touches the schedule and its two counters alone. -/
theorem chooseTurn_state (s : State) :
    (chooseTurn s).2 =
      { s with
        sched := (chooseTurn s).2.sched, waited := (chooseTurn s).2.waited, tick := (chooseTurn s).2.tick } := by
  unfold chooseTurn
  split
  · rfl
  · split
    · rfl
    · rfl
    · split <;> rfl

@[simp] theorem chooseTurn_hw (s : State) : (chooseTurn s).2.hw = s.hw := by rw [chooseTurn_state]; rfl

@[simp] theorem chooseTurn_program (s : State) : (chooseTurn s).2.program = s.program := by rw [chooseTurn_state]

@[simp] theorem chooseTurn_obs (s : State) : (chooseTurn s).2.obs = s.obs := by rw [chooseTurn_state]

theorem chooseTurn_sched {s : State} {t : Turn} {rest : List Turn} (h : s.sched = t :: rest) :
    chooseTurn s = (t, { s with sched := rest }) := by simp [chooseTurn, h]

/-- With no entry in the schedule and both agents enabled: the host until its free number of steps is used up, then the
engine. -/
theorem chooseTurn_free {s : State} (hs : s.sched = []) (hp : s.program ≠ []) (hb : busy s = true) :
    (s.waited < Config.freeHostTurns s.tick ∧ chooseTurn s = (.host, { s with waited := s.waited + 1 })) ∨
    (Config.freeHostTurns s.tick ≤ s.waited ∧ chooseTurn s = (.engine, { s with waited := 0, tick := s.tick + 1 })) := by
  cases hq : s.program with
  | nil => exact absurd hq hp
  | cons op rest =>
    by_cases h : s.waited < Config.freeHostTurns s.tick
    · exact .inl ⟨h, by simp [chooseTurn, hs, hq, hb, h]⟩
    · exact .inr ⟨Nat.le_of_not_lt h, by simp [chooseTurn, hs, hq, hb, h]⟩

/-- With no entry in the schedule and the host alone enabled, the host moves. -/
theorem chooseTurn_host {s : State} (hs : s.sched = []) (hp : s.program ≠ []) (hb : busy s = false) :
    chooseTurn s = (.host, s) := by
  cases hq : s.program with
  | nil => exact absurd hq hp
  | cons op rest => simp [chooseTurn, hs, hq, hb]

/-- With no entry in the schedule and no host instruction left, the engine moves. -/
theorem chooseTurn_engine {s : State} (hs : s.sched = []) (hp : s.program = []) : chooseTurn s = (.engine, s) := by
  simp [chooseTurn, hs, hp]

/-- What a step that answers a next state did: the engine's step, a reset, or a host step. -/
theorem step_cases {s t : State} (h : step s = .next t) :
    ((chooseTurn s).1 = .engine ∧ t = engineStep (chooseTurn s).2) ∨
    ((chooseTurn s).1 = .reset ∧ t = assertReset (chooseTurn s).2) ∨
    ((chooseTurn s).1 = .host ∧ hostStep (chooseTurn s).2 = .next t) := by
  unfold step takeTurn at h
  split at h
  · exact .inr (.inr ⟨‹_›, h⟩)
  · exact .inl ⟨‹_›, by cases h; rfl⟩
  · exact .inr (.inl ⟨‹_›, by cases h; rfl⟩)

/-- What a host step that answers a next state did: nothing left to do, a write, or a read (which changes no element of
the hardware). -/
theorem hostStep_cases {s t : State} (h : hostStep s = .next t) :
    (s.program = [] ∧ t = s) ∨
    (∃ off size w rest, s.program = .write off size w :: rest ∧ busWrite off size w { s with program := rest } = .next t) ∨
    (t.hw = s.hw ∧ ∃ v, t.obs = s.obs ++ [v]) := by
  unfold hostStep at h
  split at h
  · exact .inl ⟨‹_›, by cases h; rfl⟩
  · rename_i op rest hp
    cases op with
    | write off size w => exact .inr (.inl ⟨off, size, w, rest, hp, h⟩)
    | read off size =>
      simp only [runHostOp] at h
      split at h
      · cases h; exact .inr (.inr ⟨rfl, _, rfl⟩)
      · cases h
    | check off v =>
      simp only [runHostOp] at h
      split at h
      · split at h
        · cases h; exact .inr (.inr ⟨rfl, _, rfl⟩)
        · cases h
      · cases h
    | poll off mask v =>
      simp only [runHostOp] at h
      split at h
      · rename_i x _
        cases h
        refine .inr (.inr ⟨?_, x, ?_⟩)
        · split <;> rfl
        · simp only [observe]; split <;> rfl
      · cases h

end Sys2Proof.Machine
end

