-- ==== Sys2Proof/Laws/Bus.lean ====
section
/-! SUPPORT. The register window: which words are mapped and where each buffer word lies. -/

namespace Sys2Proof.Machine

theorem controlReg_none {n : Nat} : controlReg n = none ↔ n = 3 ∨ 9 ≤ n := by
  by_cases h : n < 9
  · interval_cases n <;> simp [controlReg]
  · obtain ⟨m, rfl⟩ : ∃ m, n = m + 9 := ⟨n - 9, by omega⟩
    exact iff_of_true rfl (by omega)

theorem regOfWord_secret (k : Fin 64) : regOfWord (64 + k.val) = some (.secret k) := by
  unfold regOfWord
  rw [dif_pos ⟨by omega, by omega⟩]
  simp

theorem regOfWord_blockIn (k : Fin 16) : regOfWord (128 + k.val) = some (.blockIn k) := by
  unfold regOfWord
  rw [dif_neg (by omega), dif_pos ⟨by omega, by omega⟩]
  simp

theorem regOfWord_blockOut (k : Fin 16) : regOfWord (144 + k.val) = some (.blockOut k) := by
  unfold regOfWord
  rw [dif_neg (by omega), dif_neg (by omega), dif_pos ⟨by omega, by omega⟩]
  simp

theorem regOfWord_control {n : Nat} (h : n < 64) : regOfWord n = controlReg n := by
  unfold regOfWord
  rw [dif_neg (by omega), dif_neg (by omega), dif_neg (by omega)]

theorem regOfWord_high {n : Nat} (h : 160 ≤ n) : regOfWord n = none := by
  unfold regOfWord
  rw [dif_neg (by omega), dif_neg (by omega), dif_neg (by omega)]
  exact controlReg_none.2 (by omega)

theorem regOfWord_none {n : Nat} : regOfWord n = none ↔ n = 3 ∨ (9 ≤ n ∧ n < 64) ∨ 160 ≤ n := by
  unfold regOfWord
  split
  · simp; omega
  · split
    · simp; omega
    · split
      · simp; omega
      · rw [controlReg_none]; omega

/-- The word of the window that holds each register. -/
theorem regOfWord_some {n : Nat} {r : Reg} (h : regOfWord n = some r) :
    (∃ k : Fin 64, n = 64 + k.val ∧ r = .secret k) ∨ (∃ k : Fin 16, n = 128 + k.val ∧ r = .blockIn k) ∨
      (∃ k : Fin 16, n = 144 + k.val ∧ r = .blockOut k) ∨ (n < 9 ∧ controlReg n = some r) := by
  unfold regOfWord at h
  split at h
  · exact .inl ⟨⟨n - 64, by omega⟩, by simp only; omega, by simpa using h.symm⟩
  · split at h
    · exact .inr (.inl ⟨⟨n - 128, by omega⟩, by simp only; omega, by simpa using h.symm⟩)
    · split at h
      · exact .inr (.inr (.inl ⟨⟨n - 144, by omega⟩, by simp only; omega, by simpa using h.symm⟩))
      · refine .inr (.inr (.inr ⟨?_, h⟩))
        by_contra hn
        rw [controlReg_none.2 (by omega)] at h
        cases h

theorem accessReg_word {off : BitVec 12} (h : off.toNat % 4 = 0) : accessReg off 4 = regOfWord (off.toNat / 4) := by
  simp [accessReg, h]

end Sys2Proof.Machine
end

