-- ==== Sys2Proof/Laws/Steps.lean ====
section
/-! SUPPORT. What one step can do to the hardware, said once: every field of R38 in the next state is the field of one of
the states `Effect` lists. -/

namespace Sys2Proof.Machine

open Config

/-- An update that leaves what the host and the schedule hold to themselves. -/
theorem engineStep_commutes (f : State → State) (s : State) (hp : (f s).phase = s.phase)
    (hk : deriveStep (f s) = f (deriveStep s)) (he : encStep (f s) = f (encStep s))
    (hd : decStep (f s) = f (decStep s)) : engineStep (f s) = f (engineStep s) := by
  unfold engineStep
  rw [hp]
  cases s.phase <;> simp [*]

theorem engineStep_hw (s : State) : engineStep s.hw = (engineStep s).hw := by
  refine engineStep_commutes State.hw s rfl ?_ ?_ ?_
  · unfold deriveStep State.hw
    simp only
    split
    · rfl
    · split <;> rfl
  · unfold encStep State.hw
    simp only
    split <;> rfl
  · unfold decStep State.hw
    simp only
    split <;> rfl

theorem acceptArm_hw (i : Instr) (s : State) : acceptArm i s.hw = (acceptArm i s).hw := by
  cases i
  · rfl
  · unfold acceptArm acceptDerive State.hw
    simp only
    split <;> rfl
  · unfold acceptArm acceptEncrypt State.hw
    simp only
    split
    · rfl
    · split <;> rfl
  · unfold acceptArm acceptDecrypt State.hw
    simp only
    split
    · rfl
    · split <;> rfl
  · rfl

theorem hw_program_irrelevant (s : State) (p : List HostOp) : State.hw { s with program := p } = s.hw := rfl

theorem busy_of_hw {s t : State} (h : s.hw = t.hw) : busy s = busy t := by
  have := congrArg State.phase h
  simp only [hw_phase] at this
  simp [busy, this]

/-- The states a step can bring the hardware to, from `s`. -/
inductive Effect (s : State) : State → Prop
  /-- the engine's step -/
  | engine (h : (chooseTurn s).1 = .engine) : Effect s (engineStep s)
  /-- reset -/
  | reset (h : (chooseTurn s).1 = .reset) : Effect s (assertReset s)
  /-- a host step that changes no element: nothing to do, a read, a write of a read-only register -/
  | unchanged (h : (chooseTurn s).1 = .host) : Effect s s
  /-- a write of CTRL -/
  | ctrl (w : Word) (h : hostWritesNext s 0x010#12 w) : Effect s (writeCtrl w s)
  /-- a write of STATUS -/
  | status (w : Word) (h : hostWritesNext s 0x018#12 w) : Effect s (writeStatus w s)
  /-- a write dropped because the engine is busy -/
  | dropped (off : BitVec 12) (w : Word) (h : hostWritesNext s off w) (ho : dropsWhileBusy off) (hb : busy s = true) :
      Effect s (dropWrite s)
  /-- a command accepted -/
  | accepted (i : Instr) (w : Word) (h : hostWritesNext s 0x014#12 w) (hw : decode w = .ok i) (hb : busy s = false) :
      Effect s (acceptArm i { s with lastOp := opcodeOf i })
  /-- an illegal word rejected -/
  | illegal (w : Word) (h : hostWritesNext s 0x014#12 w) (e : Illegal) (hw : decode w = .error e) (hb : busy s = false) :
      Effect s (complete .illegalCommand { s with lastOp := 0xF#4 })
  /-- a write of SECRET_LEN -/
  | secretLen (w : Word) (h : hostWritesNext s 0x01C#12 w) (hb : busy s = false) : Effect s (storeSecretLen w s)
  /-- a write of BLOCK_LEN -/
  | blockLen (w : Word) (h : hostWritesNext s 0x020#12 w) (hb : busy s = false) : Effect s (storeBlockLen w s)
  /-- a write of a word of SECRET -/
  | secret (k : Fin 64) (off : BitVec 12) (w : Word) (h : hostWritesNext s off w) (hb : busy s = false) :
      Effect s (storeSecret k w s)
  /-- a write of a word of BLOCK_IN -/
  | blockIn (k : Fin 16) (off : BitVec 12) (w : Word) (h : hostWritesNext s off w) (hb : busy s = false) :
      Effect s (storeBlockIn k w s)

theorem control_word {off : BitVec 12} {n : Nat} (h4 : off.toNat % 4 = 0) (h : off.toNat / 4 = n) :
    off = BitVec.ofNat 12 (4 * n) := by
  apply BitVec.eq_of_toNat_eq
  simp only [BitVec.toNat_ofNat]
  have := off.isLt
  omega

theorem controlReg_some {n : Nat} {r : Reg} (h : controlReg n = some r) :
    (n = 0 ∧ r = .id) ∨ (n = 1 ∧ r = .param0) ∨ (n = 2 ∧ r = .param1) ∨ (n = 4 ∧ r = .ctrl) ∨ (n = 5 ∧ r = .cmd) ∨
      (n = 6 ∧ r = .status) ∨ (n = 7 ∧ r = .secretLen) ∨ (n = 8 ∧ r = .blockLen) := by
  have hn : n < 9 := by
    by_contra hn
    rw [controlReg_none.2 (by omega)] at h
    cases h
  interval_cases n <;> simp_all [controlReg]

/-- The offset of each register, and whether its writes are dropped while busy. -/
theorem accessReg_offset {off : BitVec 12} {size : Nat} {r : Reg} (h : accessReg off size = some r) :
    match r with
    | .id => off = 0x000#12
    | .param0 => off = 0x004#12
    | .param1 => off = 0x008#12
    | .ctrl => off = 0x010#12
    | .cmd => off = 0x014#12
    | .status => off = 0x018#12
    | .secretLen => off = 0x01C#12
    | .blockLen => off = 0x020#12
    | .secret k => off.toNat = 0x100 + 4 * k.val
    | .blockIn k => off.toNat = 0x200 + 4 * k.val
    | .blockOut k => off.toNat = 0x240 + 4 * k.val := by
  obtain ⟨_, h4, h⟩ := accessReg_some h
  rcases regOfWord_some h with ⟨k, hk, rfl⟩ | ⟨k, hk, rfl⟩ | ⟨k, hk, rfl⟩ | ⟨_, hc⟩
  · simp only; omega
  · simp only; omega
  · simp only; omega
  · rcases controlReg_some hc with ⟨g, rfl⟩ | ⟨g, rfl⟩ | ⟨g, rfl⟩ | ⟨g, rfl⟩ | ⟨g, rfl⟩ | ⟨g, rfl⟩ | ⟨g, rfl⟩ | ⟨g, rfl⟩ <;>
      exact control_word h4 g

theorem dropsWhileBusy_offsets {off : BitVec 12} {size : Nat} {r : Reg} (h : accessReg off size = some r)
    (hr : r = .cmd ∨ r = .secretLen ∨ r = .blockLen ∨ (∃ k, r = .secret k) ∨ ∃ k, r = .blockIn k) : dropsWhileBusy off := by
  have ho := accessReg_offset h
  refine ⟨(accessReg_some h).2.1, ?_⟩
  rcases hr with rfl | rfl | rfl | ⟨k, rfl⟩ | ⟨k, rfl⟩
  · exact .inl ho
  · exact .inr (.inl ho)
  · exact .inr (.inr (.inl ho))
  · have := k.isLt; simp only at ho; exact .inr (.inr (.inr (by omega)))
  · have := k.isLt; simp only at ho; exact .inr (.inr (.inr (by omega)))

/-- Every step that answers a next state has one of the listed effects on the hardware. -/
theorem step_effect {s t : State} (h : step s = .next t) : ∃ u, Effect s u ∧ t.hw = u.hw := by
  rcases step_cases h with ⟨hc, rfl⟩ | ⟨hc, rfl⟩ | ⟨hc, hh⟩
  · exact ⟨_, .engine hc, by rw [← engineStep_hw, ← engineStep_hw, chooseTurn_hw]⟩
  · exact ⟨_, .reset hc, rfl⟩
  · rcases hostStep_cases hh with ⟨_, rfl⟩ | ⟨off, size, w, rest, hp, hbw⟩ | ⟨hrd, _⟩
    · exact ⟨_, .unchanged hc, chooseTurn_hw s⟩
    · rw [chooseTurn_program] at hp
      have hcs : State.hw { (chooseTurn s).2 with program := rest } = s.hw := chooseTurn_hw s
      generalize { (chooseTurn s).2 with program := rest } = c at hbw hcs
      obtain ⟨r, hr, hw⟩ := busWrite_next hbw
      have hsz := (accessReg_some hr).1
      subst hsz
      have hn : hostWritesNext s off w := ⟨hc, rest, hp⟩
      have ho := accessReg_offset hr
      have hbs := busy_of_hw hcs
      rw [writeReg_eq] at hw
      cases hw
      have key : ∀ (f : State → State), (∀ x : State, f x.hw = (f x).hw) → (f c).hw = (f s).hw := fun f hf => by
        rw [← hf c, ← hf s, hcs]
      cases r with
      | id | param0 | param1 | blockOut k => exact ⟨_, .unchanged hc, hcs⟩
      | ctrl =>
        obtain rfl : off = 0x010#12 := ho
        exact ⟨_, .ctrl w hn, key (writeCtrl w) fun _ => rfl⟩
      | status =>
        obtain rfl : off = 0x018#12 := ho
        exact ⟨_, .status w hn, key (writeStatus w) fun _ => rfl⟩
      | cmd =>
        cases hb : busy c with
        | true =>
          simp only [unlessBusy_busy _ hb]
          exact ⟨_, .dropped off w hn (dropsWhileBusy_offsets hr (by simp)) (hbs ▸ hb), key dropWrite fun _ => rfl⟩
        | false =>
          obtain rfl : off = 0x014#12 := ho
          simp only [unlessBusy_idle _ hb]
          cases hd : decode w with
          | ok i =>
            exact ⟨_, .accepted i w hn hd (hbs ▸ hb),
              key (fun x => acceptArm i { x with lastOp := opcodeOf i }) fun x => acceptArm_hw i { x with lastOp := opcodeOf i }⟩
          | error e =>
            exact ⟨_, .illegal w hn e hd (hbs ▸ hb), key (fun x => complete .illegalCommand { x with lastOp := 0xF#4 }) fun _ => rfl⟩
      | secretLen =>
        cases hb : busy c with
        | true =>
          simp only [unlessBusy_busy _ hb]
          exact ⟨_, .dropped off w hn (dropsWhileBusy_offsets hr (by simp)) (hbs ▸ hb), key dropWrite fun _ => rfl⟩
        | false =>
          obtain rfl : off = 0x01C#12 := ho
          simp only [unlessBusy_idle _ hb]
          exact ⟨_, .secretLen w hn (hbs ▸ hb), key (storeSecretLen w) fun _ => rfl⟩
      | blockLen =>
        cases hb : busy c with
        | true =>
          simp only [unlessBusy_busy _ hb]
          exact ⟨_, .dropped off w hn (dropsWhileBusy_offsets hr (by simp)) (hbs ▸ hb), key dropWrite fun _ => rfl⟩
        | false =>
          obtain rfl : off = 0x020#12 := ho
          simp only [unlessBusy_idle _ hb]
          exact ⟨_, .blockLen w hn (hbs ▸ hb), key (storeBlockLen w) fun _ => rfl⟩
      | secret k =>
        cases hb : busy c with
        | true =>
          simp only [unlessBusy_busy _ hb]
          exact ⟨_, .dropped off w hn (dropsWhileBusy_offsets hr (by simp)) (hbs ▸ hb), key dropWrite fun _ => rfl⟩
        | false =>
          simp only [unlessBusy_idle _ hb]
          exact ⟨_, .secret k off w hn (hbs ▸ hb), key (storeSecret k w) fun _ => rfl⟩
      | blockIn k =>
        cases hb : busy c with
        | true =>
          simp only [unlessBusy_busy _ hb]
          exact ⟨_, .dropped off w hn (dropsWhileBusy_offsets hr (by simp)) (hbs ▸ hb), key dropWrite fun _ => rfl⟩
        | false =>
          simp only [unlessBusy_idle _ hb]
          exact ⟨_, .blockIn k off w hn (hbs ▸ hb), key (storeBlockIn k w) fun _ => rfl⟩
    · exact ⟨_, .unchanged hc, by rw [hrd, chooseTurn_hw]⟩

end Sys2Proof.Machine
end

