-- ==== Sys2Proof/Laws/Engine.lean ====
section
/-! SUPPORT. The engine's step by its outcomes, each with whether it completes the command; which agent's step a step is;
and what equal hardware states share. -/

namespace Sys2Proof.Machine

open Config

/-- A function of the hardware alone has one value on states with the same hardware. -/
theorem eq_of_hw {α : Type} (f : State → α) {s t : State} (h : t.hw = s.hw) (hf : ∀ x : State, f x.hw = f x) : f t = f s := by
  rw [← hf t, ← hf s, h]

theorem step_host {s : State} (h : (chooseTurn s).1 = .host) : step s = hostStep (chooseTurn s).2 := by
  simp [step, takeTurn, h]

theorem step_engine {s : State} (h : (chooseTurn s).1 = .engine) : step s = .next (engineStep (chooseTurn s).2) := by
  simp [step, takeTurn, h]

theorem step_reset {s : State} (h : (chooseTurn s).1 = .reset) : step s = .next (assertReset (chooseTurn s).2) := by
  simp [step, takeTurn, h]

/-- An engine step's hardware is that of the engine stepping from the state before the choice. -/
theorem step_engine_hw {s t : State} (h : (chooseTurn s).1 = .engine) (ht : step s = .next t) : t.hw = (engineStep s).hw := by
  rw [step_engine h] at ht
  cases ht
  rw [← engineStep_hw, chooseTurn_hw, engineStep_hw]

theorem stepsLeft_idle {s : State} (h : s.phase = .idle) : stepsLeft s = 0 := by simp [stepsLeft, h]

theorem stepsLeft_one_derive {s : State} (h : s.phase = .derive) :
    stepsLeft s = 1 ↔ s.ksBlk.val = 14 ∧ s.ksIter.val = 500 := by
  have h1 := s.ksBlk.isLt
  have h2 := s.ksIter.isLt
  simp only [stepsLeft, h, KS_BLOCKS, DKLEN, ROUNDS, HALF, HLEN, ITER] at *
  omega

theorem stepsLeft_one_enc {s : State} (h : s.phase = .enc) : stepsLeft s = 1 ↔ s.ciRnd.val = 9 := by
  have h1 := s.ciRnd.isLt
  simp only [stepsLeft, h, ROUNDS] at *
  omega

theorem stepsLeft_one_dec {s : State} (h : s.phase = .dec) : stepsLeft s = 1 ↔ s.ciRnd.val = 0 := by
  simp only [stepsLeft, h]
  omega

/-- Everything one engine step can do, and whether it completes the command (`stepsLeft s = 1`). -/
inductive EngineOutcome (s : State) : Prop
  /-- no command in progress -/
  | idle (h : s.phase = .idle) (e : engineStep s = s)
  /-- an iteration of DERIVE that is not the block's last -/
  | deriveIter (h : s.phase = .derive) (hl : stepsLeft s ≠ 1) (hi : s.ksIter.val < 500)
      (e : engineStep s =
        { s with ksU := deriveU s, ksT := deriveT s, ksIter := ⟨s.ksIter.val + 1, Nat.succ_lt_succ hi⟩ })
  /-- the last iteration of a block of DERIVE that is not the last -/
  | deriveBlock (h : s.phase = .derive) (hl : stepsLeft s ≠ 1) (hi : s.ksIter.val = 500) (hb : s.ksBlk.val < 14)
      (e : engineStep s =
        { s with
          km := deriveKm s, ksBlk := ⟨s.ksBlk.val + 1, Nat.succ_lt_succ hb⟩, ksIter := 1,
          ksU := Bytes.zeros HLEN, ksT := Bytes.zeros HLEN })
  /-- the completion of DERIVE -/
  | deriveDone (h : s.phase = .derive) (hl : stepsLeft s = 1) (hi : s.ksIter.val = 500) (hb : s.ksBlk.val = 14)
      (e : engineStep s = deriveComplete { s with km := deriveKm s })
  /-- a round of ENCRYPT that is not the last -/
  | encRound (h : s.phase = .enc) (hl : stepsLeft s ≠ 1) (hr : s.ciRnd.val < 9)
      (e : engineStep s = { s with ciW := stepRound s, ciRnd := ⟨s.ciRnd.val + 1, Nat.add_lt_of_lt_sub hr⟩ })
  /-- the completion of ENCRYPT -/
  | encDone (h : s.phase = .enc) (hl : stepsLeft s = 1) (hr : s.ciRnd.val = 9) (e : engineStep s = encFinish (stepRound s) s)
  /-- a round of DECRYPT that is not the last -/
  | decRound (h : s.phase = .dec) (hl : stepsLeft s ≠ 1) (hr : 0 < s.ciRnd.val)
      (e : engineStep s =
        { s with
          ciW := stepRound s, ciRnd := ⟨s.ciRnd.val - 1, Nat.lt_of_le_of_lt (Nat.sub_le _ _) s.ciRnd.isLt⟩ })
  /-- the completion of DECRYPT -/
  | decDone (h : s.phase = .dec) (hl : stepsLeft s = 1) (hr : s.ciRnd.val = 0) (e : engineStep s = decFinish (stepRound s) s)

theorem engine_outcome (s : State) : EngineOutcome s := by
  cases hp : s.phase with
  | idle => exact .idle hp (engineStep_idle hp)
  | derive =>
    have e := engineStep_derive hp
    have h1 := stepsLeft_one_derive hp
    rcases deriveStep_cases s with ⟨h, g⟩ | ⟨h, h', g⟩ | ⟨h, h', g⟩
    · exact .deriveIter hp (fun hl => by have := h1.1 hl; simp only [ITER] at h; omega) h (e.trans g)
    · exact .deriveBlock hp
        (fun hl => by have := h1.1 hl; simp only [KS_BLOCKS, DKLEN, ROUNDS, HALF, HLEN] at h'; omega) h h' (e.trans g)
    · exact .deriveDone hp (h1.2 ⟨h', h⟩) h h' (e.trans g)
  | enc =>
    have e := engineStep_enc hp
    have h1 := stepsLeft_one_enc hp
    rcases encStep_cases s with ⟨h, g⟩ | ⟨h, g⟩
    · exact .encRound hp (fun hl => by have := h1.1 hl; simp only [ROUNDS] at h; omega) h (e.trans g)
    · exact .encDone hp (h1.2 h) h (e.trans g)
  | dec =>
    have e := engineStep_dec hp
    have h1 := stepsLeft_one_dec hp
    rcases decStep_cases s with ⟨h, g⟩ | ⟨h, g⟩
    · exact .decRound hp (fun hl => by have := h1.1 hl; omega) h (e.trans g)
    · exact .decDone hp (h1.2 h) h (e.trans g)

/-- The completing step leaves the engine idle, DONE set, code 0. -/
theorem engineStep_completes {s : State} (h : stepsLeft s = 1) :
    (engineStep s).done = true ∧ (engineStep s).phase = .idle ∧ (engineStep s).err = 0#4 := by
  cases engine_outcome s with
  | idle hp e => rw [stepsLeft_idle hp] at h; omega
  | deriveIter _ hl _ _ => exact absurd h hl
  | deriveBlock _ hl _ _ _ => exact absurd h hl
  | encRound _ hl _ _ => exact absurd h hl
  | decRound _ hl _ _ => exact absurd h hl
  | deriveDone _ _ _ _ e => rw [e]; exact ⟨rfl, rfl, rfl⟩
  | encDone _ _ _ e => rw [e]; exact ⟨rfl, rfl, rfl⟩
  | decDone _ _ _ e => rw [e]; exact ⟨rfl, rfl, rfl⟩

/-- Any other engine step leaves the status, the phase, the secret and BLOCK_OUT. -/
theorem engineStep_continues {s : State} (h : stepsLeft s ≠ 1) :
    (engineStep s).done = s.done ∧ (engineStep s).phase = s.phase ∧ (engineStep s).err = s.err ∧
      (engineStep s).keyValid = s.keyValid ∧ (engineStep s).secret = s.secret ∧
      (engineStep s).secretLen = s.secretLen ∧ (engineStep s).blockOut = s.blockOut := by
  cases engine_outcome s with
  | idle _ e => rw [e]; simp
  | deriveIter _ _ _ e => rw [e]; simp
  | deriveBlock _ _ _ _ e => rw [e]; simp
  | encRound _ _ _ e => rw [e]; simp
  | decRound _ _ _ e => rw [e]; simp
  | deriveDone _ hl _ _ _ => exact absurd hl h
  | encDone _ hl _ _ => exact absurd hl h
  | decDone _ hl _ _ => exact absurd hl h

/-- An engine step touches nothing of the host's and of the schedule. -/
theorem engineStep_agents (s : State) :
    (engineStep s).program = s.program ∧ (engineStep s).sched = s.sched ∧ (engineStep s).waited = s.waited ∧
      (engineStep s).tick = s.tick := by
  cases engine_outcome s with
  | idle _ e => rw [e]; simp
  | deriveIter _ _ _ e => rw [e]; simp
  | deriveBlock _ _ _ _ e => rw [e]; simp
  | encRound _ _ _ e => rw [e]; simp
  | decRound _ _ _ e => rw [e]; simp
  | deriveDone _ _ _ _ e => rw [e]; exact ⟨rfl, rfl, rfl, rfl⟩
  | encDone _ _ _ e => rw [e]; exact ⟨rfl, rfl, rfl, rfl⟩
  | decDone _ _ _ e => rw [e]; exact ⟨rfl, rfl, rfl, rfl⟩

/-- The last of `k + 1` engine steps, taken off the end. -/
theorem engineSteps_succ (k : Nat) (s : State) : engineSteps (k + 1) s = engineStep (engineSteps k s) := by
  induction k generalizing s with
  | zero => rfl
  | succ k ih => rw [engineSteps, ih]; rfl

end Sys2Proof.Machine
end

