-- ==== Sys2Proof/Laws/KeySchedule.lean ====
section
/-! SUPPORT. The blocks of PBKDF2 in the string they make: block `i + 1` is the slice at `32 * i`. -/

namespace Sys2Proof.Machine

theorem pbkdf2Blocks_slice (p salt : List Byte) (c l i : Nat) (h : i < l) :
    ((pbkdf2Blocks p salt c l).drop (32 * i)).take 32 = (pbkdf2Block p salt c (i + 1)).data := by
  induction l with
  | zero => omega
  | succ l ih =>
    have hl := length_pbkdf2Blocks p salt c l
    rw [pbkdf2Blocks]
    by_cases h' : i < l
    · rw [List.drop_append_of_le_length (by omega), List.take_append_of_le_length (by rw [List.length_drop]; omega)]
      exact ih h'
    · obtain rfl : i = l := by omega
      rw [List.drop_append, List.drop_eq_nil_of_le (by omega), hl, Nat.sub_self, List.drop_zero, List.nil_append]
      exact List.take_of_length_le (by rw [bytes_length])

end Sys2Proof.Machine
end

