-- ==== Sys2Proof/Laws/PerInstr.lean ====
section
/-! SUPPORT. Per instruction: it is well-formed, and its word passes both checks of a legal command word and carries the
opcode the table gives it (rules R59 to R61). -/

namespace Sys2Proof.Laws

/-- The word of `i` is a legal command word whose OP field is its opcode. -/
def EncodeLegal.Statement (i : Instr) : Prop :=
  i.wellFormed = true ∧ legalWord (encode i) = true ∧ opField (encode i) = opcodeOf i

theorem EncodeLegal.nop : EncodeLegal.Statement .nop := by unfold EncodeLegal.Statement; decide

theorem EncodeLegal.derive : EncodeLegal.Statement .derive := by unfold EncodeLegal.Statement; decide

theorem EncodeLegal.encrypt : EncodeLegal.Statement .encrypt := by unfold EncodeLegal.Statement; decide

theorem EncodeLegal.decrypt : EncodeLegal.Statement .decrypt := by unfold EncodeLegal.Statement; decide

theorem EncodeLegal.zeroize : EncodeLegal.Statement .zeroize := by unfold EncodeLegal.Statement; decide

end Sys2Proof.Laws
end

