-- ==== Sys2Proof/Tests/Slice0.lean ====
section
/-! SUPPORT. Tests. Expected values are the vectors of 95_test_vectors.md, named in each comment (there they are derived
from the spec's rules by a reference implementation, not measured), or words written out from the encodings of
30_encoding.md. Then, for every statement with hypotheses, states and operands that meet them. -/

namespace Sys2Proof.Tests

open Machine Config

/-- `n` bytes from a number written in hexadecimal, the first byte its most significant. -/
def hex (n x : Nat) : Bytes n :=
  ⟨(List.range n).map fun i => BitVec.ofNat 8 (x >>> (8 * (n - 1 - i))), by simp⟩

/-- STATUS as the host reads it after one step; 0xFFFFFFFF where the step or the read stops. -/
def statusAfter (s : State) : Word :=
  match step s with
  | .next t => (busRead 0x018#12 4 t).getD 0xFFFFFFFF#32
  | _ => 0xFFFFFFFF#32

/-- A field of the state after one host or engine step. -/
def after {α : Type} (f : State → α) (s : State) : Option α :=
  match step s with
  | .next t => some (f t)
  | _ => none

/-- The fault of a result. -/
def faultOf : Result → Option Fault
  | .fault f => some f
  | _ => none

/-- `s` with the host about to execute `op`. -/
def hostDoes (op : HostOp) (s : State) : State := { s with program := [op], sched := [.host] }

/-- `s` with the engine about to step. -/
def engineDoes (s : State) : State := { s with sched := [.engine] }

/-- KM of the secret `test-key` (V-KS-3), its fourteen blocks. -/
def kmTestKey : Bytes DKLEN :=
  ⟨(hex 32 0xefb29c800163cd084939e02f4fc562f9d9e82d9e40cfedb0512853dd85290f44).data ++
    (hex 32 0x79e6f37be7a25081277f5ef2db4b0d900554d38498bedbb97a4738c674e542dd).data ++
    (hex 32 0x875cd866427cf9425c6d8414dec0a342e707930d512e350a9e8c21b53142e04c).data ++
    (hex 32 0xf18101d5d7691cd7e5ef0fbcf20f954d33289ac8f47c5ac2d2613e839b958fa0).data ++
    (hex 32 0xe75fb3b6043bed314ea4be2e372df503096bc31d345771f0f233dbdd9cf87ce9).data ++
    (hex 32 0x3885586f1ce371ed8c103a8f220506fc22f1ee12807e01112c60ecee528d8920).data ++
    (hex 32 0xf9ce565409fd6b00ff7280fd128cd54eafca12f9b4696dad8db16868c4a1effe).data ++
    (hex 32 0x37694c021d373c433d006f3b0faa134f9605855afb9b28f7fccf4828c84381cb).data ++
    (hex 32 0x9e8d6d3230374bcf177afa3570434955a8fe5ba90f35a41fe7f0a284b9ada173).data ++
    (hex 32 0x7263246ee625d43a1637079ecc83d20a471c397d275f93aa409603385336ba24).data ++
    (hex 32 0x4d87382f401ce817747c08e490370fcfd01e0619f92567432a1e95baab333b7f).data ++
    (hex 32 0xed7b9a5fa388b1ed09dff6b330d6718c3f7f70549a8ae804f9db4cf9ce0a8750).data ++
    (hex 32 0x7a0224fe57bb8e6aa9a19702cecaf61e18b2b824d1b847f53013a4df5dbb5125).data ++
    (hex 32 0xdcd3997a5a26db578fc1da03595e3f1654c2159a18fcc0f058ef5638f5857d20).data, by
    simp only [List.length_append, Bytes.len]; decide⟩

/-- KEY_VALID with that KM, BLOCK_LEN = 64, BLOCK_IN zero. -/
def keyed : State := { State.reset with km := kmTestKey, keyValid := true, blockLen := 64#16 }

/-- A DERIVE of `test-key` in block `b`, iteration `j`, with KS_U and KS_T given. -/
def derivingAt (b : Fin 15) (j : Fin 501) (u t : Bytes 32) : State :=
  { State.reset with
    phase := .derive, lastOp := 1#4, ksK0 := (hex 64 0x746573742d6b65790000000000000000000000000000000000000000000000000000000000000000000000000000000000000000000000000000000000000000), ksBlk := b, ksIter := j, ksU := u, ksT := t }

/-- An ENCRYPT under `test-key` before the round with key index `r`. -/
def encrypting (r : Fin 10) (w : Bytes 64) : State := { keyed with phase := .enc, lastOp := 2#4, ciW := w, ciRnd := r }

/-- A DECRYPT under `test-key` before the round with key index `r`. -/
def decrypting (r : Fin 10) (w : Bytes 64) : State := { keyed with phase := .dec, lastOp := 3#4, ciW := w, ciRnd := r }

/-! ## Decoding: words written from the encodings (R61), and the checks of a command word -/

theorem test_decode_words :
    decode 0b00000000000000000000000000000000#32 = .ok .nop ∧
    decode 0b00000000000000000000000000000001#32 = .ok .derive ∧
    decode 0b00000000000000000000000000000010#32 = .ok .encrypt ∧
    decode 0b00000000000000000000000000000011#32 = .ok .decrypt ∧
    decode 0b00000000000000000000000000000100#32 = .ok .zeroize := by decide

/-- WellFormed smoke: the opcode check refuses 0x5 and 0xF alone (V-CT-2, V-CT-2a). -/
theorem test_unassigned_opcode_refused :
    opcodeAssigned 0x00000005#32 = false ∧ reservedBitsZero 0x00000005#32 = true ∧ legalWord 0x00000005#32 = false ∧
    legalWord 0x0000000F#32 = false ∧ decode 0x00000005#32 = .error .opcode ∧ decode 0x0000000F#32 = .error .opcode := by
  decide

/-- WellFormed smoke: the reserved-bits check refuses 0x10 and 0x80000002 alone (V-CT-2a). -/
theorem test_reserved_bits_refused :
    reservedBitsZero 0x00000010#32 = false ∧ opcodeAssigned 0x00000010#32 = true ∧ legalWord 0x00000010#32 = false ∧
    legalWord 0x80000002#32 = false ∧ decode 0x00000010#32 = .error .reservedBits ∧
    decode 0x80000002#32 = .error .reservedBits := by decide

theorem test_every_instruction_well_formed :
    [Instr.nop, .derive, .encrypt, .decrypt, .zeroize].all Instr.wellFormed = true := by decide

/-- A row's 32 bits, and more bits than a command has. -/
theorem test_decode_table_word :
    decodeTableWord 32 4 = some .zeroize ∧ decodeTableWord 40 0x100000000 = none ∧ decodeTableWord 8 3 = some .decrypt := by
  decide

/-! ## The functions -/

/-- V-SHA-1 -/
theorem test_sha256_empty : (sha256 []).data = (hex 32 0xe3b0c44298fc1c149afbf4c8996fb92427ae41e4649b934ca495991b7852b855).data := by decide +kernel

/-- V-SHA-3: 56 bytes, two blocks -/
theorem test_sha256_two_blocks : (sha256 (hex 56 0x6162636462636465636465666465666765666768666768696768696a68696a6b696a6b6c6a6b6c6d6b6c6d6e6c6d6e6f6d6e6f706e6f7071).data).data = (hex 32 0x248d6a61d20638b8e5c026930c3e6039a33ce45964ff2167f6ecedd419db06c1).data := by decide +kernel

/-- V-HMAC-2 -/
theorem test_hmac : (hmac (hex 4 0x4a656665).data
    (hex 28 0x7768617420646f2079612077616e7420666f72206e6f7468696e673f).data).data =
    (hex 32 0x5bdcc146bf60754e6a042426089575c75a003f089d2739839dec58b964ec3843).data := by decide +kernel

/-- V-HMAC-3: a key longer than a block -/
theorem test_hmac_long_key : (hmac (List.replicate 131 0xAA#8)
    (hex 54 0x54657374205573696e67204c6172676572205468616e20426c6f636b2d53697a65204b6579202d2048617368204b6579204669727374).data).data =
    (hex 32 0x60e431591ee0b67f0d8a26aacbf5b77f8e0bc6213728c5140546040f0ee37f54).data := by decide +kernel

/-- V-PBKDF2-2, two iterations -/
theorem test_pbkdf2 : (pbkdf2 (hex 8 0x70617373776f7264).data (hex 4 0x73616c74).data 2 32).data =
    (hex 32 0xae4d0c95af6b46d32d0adff928f06dd02a303f8ef3c251dfd6e2d85a95474c43).data := by decide +kernel

/-- V-KS-1: the message of block 14 -/
theorem test_first_message : SALT ++ be32 14#32 = (hex 17 0x436f6d70757465727068696c650000000e).data := by decide

/-- V-BC-1, V-BC-2 -/
theorem test_byte_operations :
    xorBytes (hex 4 0x00ff0f5a) (hex 4 0xfffff0a5) = hex 4 0xff00ffff ∧
    (swapHalves (hex 64 0x000102030405060708090a0b0c0d0e0f101112131415161718191a1b1c1d1e1f202122232425262728292a2b2c2d2e2f303132333435363738393a3b3c3d3e3f)).data =
      (hex 64 0x202122232425262728292a2b2c2d2e2f303132333435363738393a3b3c3d3e3f000102030405060708090a0b0c0d0e0f101112131415161718191a1b1c1d1e1f).data := by decide +kernel

/-- V-BC-3: one round -/
theorem test_round : (cipherRound (hex 64 0x000102030405060708090a0b0c0d0e0f101112131415161718191a1b1c1d1e1f202122232425262728292a2b2c2d2e2f303132333435363738393a3b3c3d3e3f) (roundKey kmTestKey 0)).data =
    (hex 64 0x202122232425262728292a2b2c2d2e2f303132333435363738393a3b3c3d3e3f1806db84313095010468ddbf48cb53e74fd52f48a3cfb96b35e7083f5b8358ff).data := by decide +kernel

/-! ## One step of each command -/

/-- V-CT-1: the first step after reset -/
theorem test_nop : statusAfter (State.reset.withFetchWord 32 0) = 0x00000002#32 := by decide

/-- V-CT-4: irq with IE set -/
theorem test_nop_raises_irq :
    after irq (State.withFetchWord { State.reset with ie := true } 32 0) = some true := by decide

/-- V-CT-2a: no command runs -/
theorem test_illegal_word : statusAfter (hostDoes (asmCmd 0x80000002#32) State.reset) = 0x0000F402#32 := by decide

/-- V-KS-10: STATUS from acceptance on, and the counters -/
theorem test_derive_accepted :
    statusAfter (State.reset.withFetchWord 32 1) = 0x00001001#32 ∧
    after (fun t => (t.ksBlk.val, t.ksIter.val)) (State.reset.withFetchWord 32 1) = some (1, 1) := by decide

/-- V-KS-9: a length of 257, without and with an instance -/
theorem test_derive_too_long :
    statusAfter (State.withFetchWord { State.reset with secretLen := 0x101#16 } 32 1) = 0x00001202#32 ∧
    statusAfter (State.withFetchWord { keyed with secretLen := 0x101#16 } 32 1) = 0x00001206#32 := by decide +kernel

/-- V-KS-10, step 3: an iteration -/
theorem test_derive_step :
    after (fun t => (t.ksIter.val, t.ksU.data, t.ksT.data)) (engineDoes (derivingAt 1 3
      (hex 32 0x4257136b9690b230b045abbaf52c0998d82e62a23e5a30fa4abbd15636893072)
      (hex 32 0xc2ca4ba3c894c34d6a781c3f2da0dc2e37c5199ad597bb607a0c9bc99b521456))) =
    some (4, (hex 32 0xeee112d009d958699c69ccce8eaf7075a4742891b25667d16a2bda0137263989).data,
      (hex 32 0x2c2b5973c14d9b24f611d0f1a30fac5b93b1310b67c1dcb1102741c8ac742ddf).data) := by decide +kernel

/-- V-KS-10, step 500: `T_1` goes to KM and the next block begins -/
theorem test_derive_block :
    after (fun t => (t.ksBlk.val, t.ksIter.val, t.km.data.take 32)) (engineDoes (derivingAt 1 500
      (hex 32 0xd4eb5d6b85bcc8ad0b9f7e3e6d77b33f5022f2179822b8516eff4c3e9c9d287d)
      (hex 32 0x4ce5e42ae90bf7ba7d2cae882c3ee682578642c138e9897eb4950e3a57503fa7))) =
    some (2, 1, (hex 32 0xefb29c800163cd084939e02f4fc562f9d9e82d9e40cfedb0512853dd85290f44).data) := by decide +kernel

/-- V-KS-10, step 7000: `T_14` and the completion, from a KM that still lacks it -/
theorem test_derive_completes :
    after (fun t => (t.km.data.drop 416, statusWord t)) (engineDoes (derivingAt 14 500
      (hex 32 0x88216c2d2210af839c5f769cf921b37a3e763bfe05145d35d90b5f42c0a5d393)
      (hex 32 0x583bb636cfed03d96c83c9ffded1b3d4ab0ba91a083450bebead65c641639cb6))) =
    some ((hex 32 0xdcd3997a5a26db578fc1da03595e3f1654c2159a18fcc0f058ef5638f5857d20).data, 0x00001006#32) := by decide +kernel

/-- V-CT-3 and R110: no key, then a wrong block length -/
theorem test_encrypt_rejected :
    statusAfter (State.reset.withFetchWord 32 2) = 0x00002302#32 ∧
    statusAfter (State.withFetchWord { keyed with blockLen := 63#16 } 32 2) = 0x00002106#32 := by decide +kernel

/-- V-BC-5: acceptance, and step 1 -/
theorem test_encrypt_rounds :
    after (fun t => (t.ciRnd.val, t.ciW.data)) (keyed.withFetchWord 32 2) = some (0,
      (hex 64 0xefb29c800163cd084939e02f4fc562f9d9e82d9e40cfedb0512853dd85290f4479e6f37be7a25081277f5ef2db4b0d900554d38498bedbb97a4738c674e542dd).data) ∧
    after (fun t => (t.ciRnd.val, t.ciW.data)) (engineDoes (encrypting 0
      (hex 64 0xefb29c800163cd084939e02f4fc562f9d9e82d9e40cfedb0512853dd85290f4479e6f37be7a25081277f5ef2db4b0d900554d38498bedbb97a4738c674e542dd))) = some (1,
      (hex 64 0x79e6f37be7a25081277f5ef2db4b0d900554d38498bedbb97a4738c674e542dd6f4242cf5baec9b850cdf3b0c8cb18e654bbf96b8f32bae01249a08fa0fa523c).data) := by decide +kernel

/-- V-BC-5, step 10 -/
theorem test_encrypt_completes :
    after (fun t => (t.blockOut.data, statusWord t)) (engineDoes (encrypting 9
      (hex 64 0x2819d3c8c4e1922c7175f3b0dcda01553fceed643e1cde5f311cdd45f34277e445c6ecc48fbd3ad7764479560d3a1aaeba055933e6eb466d02b660fad2e35357))) = some (
      (hex 64 0xc8f3d1a407232a2fff3536410dc2e8eef7d2d17a25eb61d811141379a1dabb7c991575bed59be180f985a355546425b8eec74ca9fe17869d5a5936c227662e77).data, 0x00002006#32) := by decide +kernel

/-- V-BC-6: acceptance, and step 1 -/
theorem test_decrypt_rounds :
    after (fun t => (t.ciRnd.val, t.ciW.data)) (State.withFetchWord { keyed with blockIn :=
      (hex 64 0xc8f3d1a407232a2fff3536410dc2e8eef7d2d17a25eb61d811141379a1dabb7c991575bed59be180f985a355546425b8eec74ca9fe17869d5a5936c227662e77) } 32 3) = some (9,
      (hex 64 0xb2f1f55a5098a4455694a143c3081ef0ef60695ef453262d2107b7a6fc61ea5945c6ecc48fbd3ad7764479560d3a1aaeba055933e6eb466d02b660fad2e35357).data) ∧
    after (fun t => (t.ciRnd.val, t.ciW.data)) (engineDoes (decrypting 9
      (hex 64 0xb2f1f55a5098a4455694a143c3081ef0ef60695ef453262d2107b7a6fc61ea5945c6ecc48fbd3ad7764479560d3a1aaeba055933e6eb466d02b660fad2e35357))) = some (8,
      (hex 64 0x45c6ecc48fbd3ad7764479560d3a1aaeba055933e6eb466d02b660fad2e353572819d3c8c4e1922c7175f3b0dcda01553fceed643e1cde5f311cdd45f34277e4).data) := by decide +kernel

/-- V-BC-6, step 10 -/
theorem test_decrypt_completes :
    after (fun t => (t.blockOut.data, statusWord t)) (engineDoes (decrypting 0
      (hex 64 0x6f4242cf5baec9b850cdf3b0c8cb18e654bbf96b8f32bae01249a08fa0fa523c79e6f37be7a25081277f5ef2db4b0d900554d38498bedbb97a4738c674e542dd))) = some (
      List.replicate 64 0#8, 0x00003006#32) := by decide +kernel

/-- V-CT-3: STATUS after ZEROIZE, and the cleared key material -/
theorem test_zeroize :
    after (fun t => (statusWord t, t.km.data)) (keyed.withFetchWord 32 4) =
      some (0x00004002#32, List.replicate 448 0#8) := by decide +kernel

/-- V-CT-10: dropped while a command runs, LAST_OP kept -/
theorem test_zeroize_dropped_while_busy :
    after (fun t => (statusWord t, t.keyValid)) ((encrypting 3 (Bytes.zeros 64)).withFetchWord 32 4) =
      some (0x0000200D#32, true) := by decide +kernel

/-! ## The bus and the host -/

/-- V-BUS-1 -/
theorem test_constant_registers :
    busRead 0x000#12 4 State.reset = some 0x46504B31#32 ∧ busRead 0x004#12 4 State.reset = some 0x0D40200A#32 ∧
    busRead 0x008#12 4 State.reset = some 0x010001F4#32 := by decide

/-- V-BUS-4: no access of a bad size, unaligned or unmapped -/
theorem test_bus_errors :
    busRead 0x002#12 4 State.reset = none ∧ busRead 0x000#12 2 State.reset = none ∧
    busRead 0x00C#12 4 State.reset = none ∧ busRead 0x280#12 4 State.reset = none ∧
    faultOf (busWrite 0xFFC#12 4 0#32 State.reset) = some (.busError 0xFFC#12) := by decide

/-- V-BUS-5: the little-endian packing -/
theorem test_block_in_packing :
    after (fun t => (t.blockIn.data.take 5, busRead 0x200#12 4 t)) (hostDoes (asmWr 0x200#12 0x03020100#32) State.reset) =
      some ([0x00#8, 0x01#8, 0x02#8, 0x03#8, 0x00#8], some 0x03020100#32) := by decide +kernel

/-- V-BUS-6, V-BUS-7: reserved bits, and a read-only buffer -/
theorem test_reserved_bits_and_read_only :
    after (busRead 0x01C#12 4) (hostDoes (asmWr 0x01C#12 0x12340008#32) State.reset) = some (some 0x00000008#32) ∧
    after (busRead 0x240#12 4) (hostDoes (asmWr 0x240#12 0xDEADBEEF#32) State.reset) = some (some 0#32) := by decide +kernel

/-- V-CT-7, V-CT-8 -/
theorem test_control_and_status_writes :
    after (busRead 0x010#12 4) (hostDoes (asmWr 0x010#12 0xFFFFFFFF#32) State.reset) = some (some 1#32) ∧
    statusAfter (hostDoes (asmWr 0x018#12 0xFFFFFFFF#32) State.reset) = 0#32 := by decide

/-- V-CT-9: a length write while busy -/
theorem test_write_dropped_while_busy :
    after (fun t => (t.blockLen, statusWord t)) (hostDoes (asmWr 0x020#12 0x40#32)
      (derivingAt 1 1 (Bytes.zeros 32) (Bytes.zeros 32))) = some (0#16, 0x00001009#32) := by decide +kernel

/-- R67, R158: a check that fails is a fault, one that holds is observed -/
theorem test_check :
    faultOf (step (hostDoes (.check 0x018#12 1#32) State.reset)) = some (.checkFailed 0x018#12) ∧
    after State.obs (hostDoes (.check 0x018#12 0#32) State.reset) = some [0#32] := by decide

/-- R69: WAIT stays while BUSY = 1 and ends when BUSY = 0 -/
theorem test_wait :
    after (fun t => t.program.length) (hostDoes asmWait (encrypting 3 (Bytes.zeros 64))) = some 1 ∧
    after (fun t => t.program.length) (hostDoes asmWait State.reset) = some 0 := by decide +kernel

/-- R69: LOADSECRET of `test-key` (the writes of P1, R47) -/
theorem test_load_secret :
    asmLoadSecret (hex 8 0x746573742d6b6579).data =
      [asmWr 0x100#12 0x74736574#32, asmWr 0x104#12 0x79656B2D#32, asmWr 0x01C#12 8#32] := by decide +kernel

/-- R69: LOADSECRET "test-key" is LOADSECRET of its bytes; a text outside ASCII has none -/
theorem test_load_secret_text :
    asmLoadSecretText "test-key" = some (asmLoadSecret (hex 8 0x746573742d6b6579).data) ∧
    asmLoadSecretText "naïve" = none := by decide +kernel

/-- R142: reset during a command -/
theorem test_reset_during_a_command :
    after (fun t => (statusWord t, t.km.data)) { encrypting 3 (Bytes.zeros 64) with sched := [.reset] } =
      some (0#32, List.replicate 448 0#8) := by decide +kernel

/-! ## Witnesses: states and operands that meet the hypotheses of the statements

An idle engine without an instance, one with an instance, and each long command in progress; the invariants hold in all
of them. -/

/-- Idle, no instance. -/
def fresh (len : BitVec 16) : State := { State.reset with ie := true, secretLen := len }

/-- Idle, with an instance. -/
def ready (len : BitVec 16) : State := { keyed with blockLen := len, blockOut := Bytes.rep 0xA5#8 64 }

/-- An ENCRYPT of the zero block with `r` rounds done. -/
def midEnc (r : Fin 10) : State :=
  encrypting r (((roundKeys kmTestKey).take r.val).foldl cipherRound (xorBytes (Bytes.zeros 64) (prekey kmTestKey)))

/-- A DECRYPT of the zero block before the round with key index `r`. -/
def midDec (r : Fin 10) : State :=
  decrypting r
    (((roundKeys kmTestKey).reverse.take (ROUNDS - 1 - r.val)).foldl cipherRound
      (xorBytes (Bytes.zeros 64) (postkey kmTestKey)))

/-- A DERIVE of the empty secret before its last step, given the PRF output and the XOR so far, and KM. -/
def lastDeriveOf (p : Bytes 32 × Bytes 32) (km : Bytes 448) : State :=
  { State.reset with
    phase := .derive, lastOp := 1#4, ksK0 := hkey [], ksBlk := ⟨14, by decide⟩, ksIter := ⟨500, by decide⟩,
    ksU := p.1, ksT := p.2, km := km }

/-- A DERIVE of the empty secret before its last step. -/
def lastDerive : State := lastDeriveOf (prfPair [] SALT 14 498) (deriveKey [])

theorem witness_seqInv_fresh (len : BitVec 16) : SeqInv (fresh len) :=
  ⟨show (0#4 : BitVec 4) ≤ 4#4 by decide, .inl (show (0#4 : BitVec 4) ≤ 4#4 by decide),
    fun _ => ⟨rfl, rfl, rfl, rfl, rfl⟩, fun _ _ => ⟨rfl, rfl⟩, nofun, nofun,
    fun h => h.elim nofun nofun, fun h => absurd rfl h, fun _ _ => rfl⟩

theorem witness_seqInv_ready (len : BitVec 16) : SeqInv (ready len) :=
  ⟨show (0#4 : BitVec 4) ≤ 4#4 by decide, .inl (show (0#4 : BitVec 4) ≤ 4#4 by decide),
    fun _ => ⟨rfl, rfl, rfl, rfl, rfl⟩, fun _ _ => ⟨rfl, rfl⟩, nofun, nofun,
    fun h => h.elim nofun nofun, fun h => absurd rfl h, nofun⟩

theorem witness_inv_midEnc (r : Fin 10) : SeqInv (midEnc r) ∧ ProgressInv (midEnc r) ∧ busy (midEnc r) = true :=
  ⟨⟨show (0#4 : BitVec 4) ≤ 4#4 by decide, .inl (show (2#4 : BitVec 4) ≤ 4#4 by decide),
    fun _ => ⟨rfl, rfl, rfl, rfl, rfl⟩, fun h => absurd rfl h, nofun, nofun,
    fun _ => ⟨rfl, rfl⟩, fun _ => ⟨rfl, rfl, rfl⟩, nofun⟩,
    ⟨nofun, nofun, nofun, fun _ => rfl, nofun⟩, rfl⟩

theorem witness_inv_midDec (r : Fin 10) : SeqInv (midDec r) ∧ ProgressInv (midDec r) ∧ busy (midDec r) = true :=
  ⟨⟨show (0#4 : BitVec 4) ≤ 4#4 by decide, .inl (show (3#4 : BitVec 4) ≤ 4#4 by decide),
    fun _ => ⟨rfl, rfl, rfl, rfl, rfl⟩, fun _ h => absurd rfl h, nofun, nofun,
    fun _ => ⟨rfl, rfl⟩, fun _ => ⟨rfl, rfl, rfl⟩, nofun⟩,
    ⟨nofun, nofun, nofun, nofun, fun _ => rfl⟩, rfl⟩

theorem secretOperand_lastDeriveOf (p : Bytes 32 × Bytes 32) (km : Bytes 448) : secretOperand (lastDeriveOf p km) = [] := rfl

theorem witness_inv_lastDerive : SeqInv lastDerive ∧ ProgressInv lastDerive ∧ busy lastDerive = true := by
  unfold lastDerive
  have hp : ∀ q : Bytes 32 × Bytes 32, q = prfPair [] SALT 14 498 → (q.1, q.2) = prfPair [] SALT 14 498 := fun _ h => h
  have hk : ∀ (i : Nat) (h : i + 1 < 14), sliceBytes (deriveKey []) (32 * i) HLEN (by show 32 * i + 32 ≤ 448; omega) =
      pbkdf2Block [] SALT ITER (i + 1) := fun i h => by
    have e : (DKLEN + 31) / 32 = 14 := by decide
    apply bytes_ext
    rw [← pbkdf2Blocks_slice [] SALT ITER 14 i (by omega)]
    simp only [sliceBytes, deriveKey, pbkdf2, e]
    rw [List.take_of_length_le (l := pbkdf2Blocks [] SALT ITER 14) (by rw [length_pbkdf2Blocks]; decide)]
  generalize deriveKey [] = km at hk
  have hq := hp _ rfl
  generalize hr : prfPair [] SALT 14 498 = q at hq
  refine ⟨⟨show (0#4 : BitVec 4) ≤ 4#4 by decide, .inl (show (1#4 : BitVec 4) ≤ 4#4 by decide),
    fun h => absurd rfl h, fun _ _ => ⟨rfl, rfl⟩, fun _ => ⟨show 1 ≤ 14 by decide, show 1 ≤ 500 by decide⟩,
    fun _ => ⟨show 0 ≤ 256 by decide, rfl⟩, fun h => h.elim nofun nofun, fun _ => ⟨rfl, rfl, rfl⟩,
    fun _ h => absurd rfl h⟩, ⟨fun _ => ?_, fun _ i h => ?_, fun _ _ => ?_, nofun, nofun⟩, rfl⟩
  · rw [secretOperand_lastDeriveOf]; rfl
  · rw [secretOperand_lastDeriveOf]; exact hk i h
  · rw [secretOperand_lastDeriveOf]; exact hr.symm

/-- IllegalWordCompletesWithIllegalCommand: both kinds of illegal word, at their boundaries. -/
theorem witness_illegal_words :
    SeqInv (fresh 0#16) ∧ busy (fresh 0#16) = false ∧
    ((0x5#32 : Word).extractLsb' 4 28 = 0#28 ∧ 5 ≤ ((0x5#32 : Word).extractLsb' 0 4).toNat) ∧
    ((0xF#32 : Word).extractLsb' 4 28 = 0#28 ∧ 5 ≤ ((0xF#32 : Word).extractLsb' 0 4).toNat) ∧
    (0x10#32 : Word).extractLsb' 4 28 ≠ 0#28 ∧ (0x80000002#32 : Word).extractLsb' 4 28 ≠ 0#28 :=
  ⟨witness_seqInv_fresh _, rfl, by decide, by decide, by decide, by decide⟩

/-- NopCompletesAtOnce, ZeroizeLeavesTheResetState, ErrorPriority, WritesWhileBusyAreDropped, LengthRegistersReadBack,
MaskingLosesNoCompletion, OvrIsSticky: an idle and a busy state, and an instruction's next state. -/
theorem witness_idle_and_busy :
    SeqInv (ready 64#16) ∧ busy (ready 64#16) = false ∧ busy (midEnc 0) = true ∧
    (∃ t, exec .zeroize (ready 64#16) = .next t) ∧ (∃ t, exec .nop (fresh 0#16) = .next t) ∧
    (∃ t, busWrite 0x01C#12 4 0x00000101#32 (fresh 0#16) = .next t) ∧
    (∃ t, busWrite 0x020#12 4 0x00000040#32 (fresh 0#16) = .next t) :=
  ⟨witness_seqInv_ready _, rfl, rfl, ⟨_, rfl⟩, ⟨_, rfl⟩, ⟨_, rfl⟩, ⟨_, rfl⟩⟩

/-- DeriveStartsOrRejects, EmptySecretDerives, SecondDeriveUsesTheEmptySecret, DeriveCounterTrace,
DeriveComputesTheKeyMaterial: the lengths 0, 256 and 257. -/
theorem witness_derive :
    SeqInv (fresh 0#16) ∧ SeqInv (fresh 256#16) ∧ SeqInv (fresh 257#16) ∧ busy (fresh 257#16) = false ∧
    (fresh 0#16).secretLen = 0#16 ∧ (fresh 256#16).secretLen.toNat ≤ 256 ∧ 256 < (fresh 257#16).secretLen.toNat ∧
    (∃ t, exec .derive (fresh 0#16) = .next t) ∧ ∃ t, exec .derive (fresh 256#16) = .next t :=
  ⟨witness_seqInv_fresh _, witness_seqInv_fresh _, witness_seqInv_fresh _, rfl, rfl, by decide, by decide, ⟨_, rfl⟩,
    ⟨_, rfl⟩⟩

/-- EncryptStartsOrRejects, DecryptStartsOrRejects, CipherCommandsTakeTenSteps: no key, and the lengths 63, 64, 65. -/
theorem witness_cipher :
    SeqInv (fresh 0#16) ∧ (fresh 0#16).keyValid = false ∧ SeqInv (ready 64#16) ∧ busy (ready 64#16) = false ∧
    (ready 64#16).keyValid = true ∧ (ready 64#16).blockLen.toNat = 64 ∧ (ready 63#16).blockLen.toNat ≠ 64 ∧
    (ready 65#16).blockLen.toNat ≠ 64 ∧ (∃ t, exec .encrypt (ready 64#16) = .next t) ∧
    ∃ t, exec .decrypt (ready 64#16) = .next t :=
  ⟨witness_seqInv_fresh _, rfl, witness_seqInv_ready _, rfl, rfl, by decide +kernel, by decide +kernel,
    by decide +kernel, ⟨_, rfl⟩, ⟨_, rfl⟩⟩

/-- RejectedCommandChangesStatusOnly: a rejected word. -/
theorem witness_rejected :
    SeqInv (fresh 0#16) ∧ busy (fresh 0#16) = false ∧ ∃ t, busWrite 0x014#12 4 0x2#32 (fresh 0#16) = .next t ∧ t.err ≠ 0#4 :=
  ⟨witness_seqInv_fresh _, rfl, _, rfl, by decide⟩

/-- ErrorPriority, BusErrorsExactly, ReadOnlyWriteOnlyAndReservedBits, WritesWhileBusyAreDropped: the offsets at the edges
of each range, and that no offset falls under two clauses with different outcomes. -/
theorem witness_offsets :
    unmappedOffset 0x00C#12 ∧ unmappedOffset 0x024#12 ∧ unmappedOffset 0x0FC#12 ∧ unmappedOffset 0x280#12 ∧
    unmappedOffset 0xFFC#12 ∧ ¬ unmappedOffset 0x010#12 ∧ ¬ unmappedOffset 0x020#12 ∧ ¬ unmappedOffset 0x100#12 ∧
    ¬ unmappedOffset 0x27C#12 ∧ dropsWhileBusy 0x014#12 ∧ dropsWhileBusy 0x01C#12 ∧ dropsWhileBusy 0x020#12 ∧
    dropsWhileBusy 0x100#12 ∧ dropsWhileBusy 0x23C#12 ∧ ¬ dropsWhileBusy 0x010#12 ∧ ¬ dropsWhileBusy 0x018#12 ∧
    ¬ dropsWhileBusy 0x008#12 ∧ ¬ dropsWhileBusy 0x240#12 := by
  unfold unmappedOffset dropsWhileBusy
  and_intros <;> decide

/-- StatusAfterIssueShowsBusyOrDone, ResetSetsEveryElement, ReadsHaveNoSideEffect, HostReadsObserveAndPollRepeats,
StepRunsTheIssuedCommand: the next agent, the program, and a next state. -/
theorem witness_turns :
    (∃ t, takeTurn .reset (midEnc 3) = .next t) ∧ busRead 0x00C#12 4 (fresh 0#16) = none ∧
    (chooseTurn (hostDoes (asmRd 0x018#12) (fresh 0#16))).1 = .host ∧
    (∀ off size w rest, (hostDoes (asmRd 0x018#12) (fresh 0#16)).program ≠ .write off size w :: rest) ∧
    (∃ t, hostStep (hostDoes (asmRd 0x018#12) (fresh 0#16)) = .next t) ∧ busRead 0x018#12 4 (fresh 0#16) = some 0#32 ∧
    (chooseTurn (hostDoes (asmCommand .nop) (fresh 0#16))).1 = .host ∧ decode (encode .nop) = .ok .nop ∧
    (hostDoes (asmCommand .nop) (fresh 0#16)).program = .write 0x014#12 4 (encode .nop) :: [] ∧
    decodeTableWord 32 2 = some .encrypt :=
  ⟨⟨_, rfl⟩, by decide, rfl, fun _ _ _ _ => nofun, ⟨_, rfl⟩, by decide, rfl, by decide, rfl, by decide⟩

/-- BufferPackingIsLittleEndian: the example's two writes, idle. -/
theorem witness_packing :
    ∃ t u, busWrite 0x100#12 4 0x74736574#32 (fresh 0#16) = .next t ∧ busWrite 0x104#12 4 0x79656B2D#32 t = .next u :=
  ⟨_, _, rfl, rfl⟩

/-- MaskingLosesNoCompletion: DONE set and the mask written; a command that completes within its write with IE set. -/
theorem witness_masking :
    (∃ s t, s.done = true ∧ busWrite 0x010#12 4 0x00000001#32 s = .next t) ∧
    (∃ t, busWrite 0x010#12 4 0x00000000#32 (fresh 0#16) = .next t) ∧
    (fresh 0#16).ie = true ∧ ∃ t, busWrite 0x014#12 4 0x0#32 (fresh 0#16) = .next t ∧ busy t = false :=
  ⟨⟨{ fresh 0#16 with done := true }, _, rfl, rfl⟩, ⟨_, rfl⟩, rfl, _, rfl, rfl⟩

/-- OvrIsSticky, DoneIsSetByCompletionsOnly: both values of OVR and DONE before a step, and each way to change them. -/
theorem witness_status_steps :
    (∃ t, step (hostDoes (asmWr 0x01C#12 1#32) (midEnc 3)) = .next t ∧ t.ovr = true) ∧
    (∃ t, step (hostDoes asmClrOvr { midEnc 3 with ovr := true }) = .next t ∧ t.ovr = false) ∧
    (∃ t, step (hostDoes asmClrDone { fresh 0#16 with done := true }) = .next t ∧ t.done = false) ∧
    (∃ t, step (hostDoes (asmCommand .nop) (fresh 0#16)) = .next t ∧ t.done = true) ∧
    (∃ t, step (hostDoes (asmCommand .encrypt) { ready 64#16 with done := true }) = .next t ∧ busy t = true) :=
  ⟨⟨_, rfl, rfl⟩, ⟨_, rfl, rfl⟩, ⟨_, rfl, rfl⟩, ⟨_, rfl, rfl⟩, ⟨_, rfl, rfl⟩⟩

/-- CompletionDeliversTheResult, DoneIsSetByCompletionsOnly, InstanceLifetime: a completing step of each long command. -/
theorem witness_completions :
    (SeqInv (engineDoes (midEnc 9)) ∧ ProgressInv (engineDoes (midEnc 9)) ∧ completesNext (engineDoes (midEnc 9))) ∧
    (SeqInv (engineDoes (midDec 0)) ∧ ProgressInv (engineDoes (midDec 0)) ∧ completesNext (engineDoes (midDec 0))) ∧
    (SeqInv (engineDoes lastDerive) ∧ ProgressInv (engineDoes lastDerive) ∧ completesNext (engineDoes lastDerive)) ∧
    (engineDoes lastDerive).keyValid = false ∧ (∃ t, step (engineDoes (midEnc 9)) = .next t) ∧
    ∃ t, step (engineDoes lastDerive) = .next t := by
  have seq : ∀ s, SeqInv s → SeqInv (engineDoes s) := fun s h => ⟨h.1, h.2, h.3, h.4, h.5, h.6, h.7, h.8, h.9⟩
  have prog : ∀ s, ProgressInv s → ProgressInv (engineDoes s) := fun s h => ⟨h.1, h.2, h.3, h.4, h.5⟩
  have e := witness_inv_midEnc 9
  have d := witness_inv_midDec 0
  have k := witness_inv_lastDerive
  exact ⟨⟨seq _ e.1, prog _ e.2.1, rfl, rfl⟩, ⟨seq _ d.1, prog _ d.2.1, rfl, rfl⟩,
    ⟨seq _ k.1, prog _ k.2.1, rfl, (stepsLeft_one_derive rfl).2 ⟨rfl, rfl⟩⟩, rfl, ⟨_, rfl⟩, ⟨_, rfl⟩⟩

/-- InstanceLifetime, KeyMaterialIsWrittenByDeriveZeroizeResetOnly, BlockOutChangesAtCompletionOnly: a step that ends an
instance, changes KM and changes BLOCK_OUT. -/
theorem witness_zeroize_step :
    SeqInv (ready 64#16) ∧ (ready 64#16).keyValid = true ∧
    ∃ t, step (hostDoes (asmCommand .zeroize) (ready 64#16)) = .next t ∧ t.km ≠ (ready 64#16).km ∧
      t.blockOut ≠ (ready 64#16).blockOut ∧ t.keyValid = false :=
  ⟨witness_seqInv_ready _, rfl, _, rfl, by decide +kernel, by decide +kernel, rfl⟩

/-- PhaseChangesByAcceptanceAndCompletionOnly: a step that leaves IDLE, and one that returns to it. -/
theorem witness_phase_changes :
    (∃ t, step (hostDoes (asmCommand .derive) (fresh 0#16)) = .next t ∧ t.phase = .derive) ∧
    (∃ t, step { midEnc 3 with sched := [.reset] } = .next t ∧ t.phase = .idle) ∧ (fresh 0#16).phase = .idle :=
  ⟨⟨_, rfl, rfl⟩, ⟨_, rfl, rfl⟩, rfl⟩

/-- InputsAreFrozenWhileBusy, EngineStepFrame, OnlyEngineStepsAdvanceACommand: a command in progress, an engine turn and a
host turn, more than one step left, one step left, and a DERIVE. -/
theorem witness_in_progress :
    SeqInv (midEnc 3) ∧ busy (midEnc 3) = true ∧ stepsLeft (midEnc 3) = 7 ∧ stepsLeft (midEnc 9) = 1 ∧
    (midEnc 3).phase ≠ .derive ∧ lastDerive.phase = .derive ∧ (chooseTurn (engineDoes (midEnc 3))).1 = .engine ∧
    (∃ t, step (engineDoes (midEnc 3)) = .next t) ∧ (chooseTurn (hostDoes asmWait (midEnc 3))).1 = .host ∧
    ∃ t, step (hostDoes asmWait (midEnc 3)) = .next t :=
  ⟨(witness_inv_midEnc 3).1, rfl, rfl, rfl, by decide, rfl, rfl, ⟨_, rfl⟩, rfl, ⟨_, rfl⟩⟩

/-- SecretsStayInside: two states that differ in the secret alone, a step that runs, and one that faults. -/
theorem witness_secrets :
    State.open_ (fresh 0#16) = State.open_ { fresh 0#16 with secret := Bytes.rep 0x41#8 256 } ∧
    fresh 0#16 ≠ { fresh 0#16 with secret := Bytes.rep 0x41#8 256 } ∧
    ¬ ((chooseTurn (fresh 0#16)).1 = .engine ∧ ((fresh 0#16).phase = .enc ∨ (fresh 0#16).phase = .dec)) ∧
    (∃ t, step (fresh 0#16) = .next t) ∧ ∃ f, step (hostDoes (asmRd 0x00C#12) (fresh 0#16)) = .fault f :=
  ⟨rfl, by decide +kernel, by decide, ⟨_, rfl⟩, ⟨_, rfl⟩⟩

/-- EveryStepKeepsTheSequencerInvariant, EveryStepKeepsTheProgressInvariant: a busy state and a step from it. -/
theorem witness_invariant_step :
    SeqInv (midDec 4) ∧ ProgressInv (midDec 4) ∧ ∃ t, step (midDec 4) = .next t :=
  ⟨(witness_inv_midDec 4).1, (witness_inv_midDec 4).2.1, ⟨_, rfl⟩⟩

/-- CommandCompletesUnderAnyInterleaving: a run that ends before the completion, and one that ends with it. -/
theorem witness_interleaving :
    (SeqInv { midEnc 3 with sched := [.host, .engine, .host] } ∧ .reset ∉ [Turn.host, .engine] ∧
      [Turn.host, .engine].count .engine < stepsLeft (midEnc 3) ∧
      ∃ t, runSteps 2 { midEnc 3 with sched := [.host, .engine, .host] } = .next t) ∧
    (SeqInv { midEnc 9 with sched := [.host, .engine] } ∧ [Turn.host].count .engine + 1 = stepsLeft (midEnc 9) ∧
      ∃ t, runSteps 2 { midEnc 9 with sched := [.host, .engine] } = .next t) := by
  have seq : ∀ s l, SeqInv s → SeqInv { s with sched := l } := fun s _ h => ⟨h.1, h.2, h.3, h.4, h.5, h.6, h.7, h.8, h.9⟩
  exact ⟨⟨seq _ _ (witness_inv_midEnc 3).1, by decide, by decide, ⟨_, rfl⟩⟩,
    seq _ _ (witness_inv_midEnc 9).1, rfl, ⟨_, rfl⟩⟩

/-- PaddingFillsWholeBlocks, HmacFromMidstates, KeyPreparation: lengths at the edges of each range. -/
theorem witness_lengths :
    (List.replicate 55 0#8).length ≤ 55 ∧ 56 ≤ (List.replicate 56 0#8).length ∧ (List.replicate 119 0#8).length ≤ 119 ∧
    120 ≤ (List.replicate 120 0#8).length ∧ (List.replicate 183 0#8).length ≤ 183 ∧
    (List.replicate 64 0#8).length ≤ 64 ∧ 64 < (List.replicate 65 0#8).length ∧ (List.replicate 8 1#8).length + 56 ≤ 64 := by
  simp only [List.length_replicate]; decide

/-- EveryExecutionIsWeaklyFair: an execution, with a command in progress at its start. -/
theorem witness_execution :
    Execution (fun k => engineSteps k (midEnc 3)) ∧ engineEnabled (engineSteps 0 (midEnc 3)) := by
  have host : ∀ k, (engineSteps k (midEnc 3)).program = [] ∧ (engineSteps k (midEnc 3)).sched = [] := fun k => by
    induction k with
    | zero => exact ⟨rfl, rfl⟩
    | succ k ih => rw [engineSteps_succ, (engineStep_agents _).1, (engineStep_agents _).2.1]; exact ih
  refine ⟨fun k => ?_, by show Phase.enc ≠ .idle; decide⟩
  have e := chooseTurn_engine (host k).2 (host k).1
  exact (step_engine (by rw [e])).trans (congrArg Host.Outcome.next (by rw [e]; exact (engineSteps_succ k _).symm))

/-- EveryCommandCompletes, PollForIdleEnds: a command in progress, with the POLL the host's next instruction. -/
theorem witness_fairness :
    SeqInv { midEnc 3 with program := [asmWait, asmRd 0x018#12] } ∧
    busy { midEnc 3 with program := [asmWait, asmRd 0x018#12] } = true ∧ .reset ∉ (midEnc 3).sched ∧
    State.program { midEnc 3 with program := [asmWait, asmRd 0x018#12] } = asmWait :: [asmRd 0x018#12] := by
  have h := (witness_inv_midEnc 3).1
  exact ⟨⟨h.1, h.2, h.3, h.4, h.5, h.6, h.7, h.8, h.9⟩, rfl, nofun, rfl⟩

end Sys2Proof.Tests
end

section
/-! Which agent moves while the schedule has an entry: the one that entry names (log entry 1). -/

namespace Sys2Proof.Machine

/-- The schedule's entry decides alone: neither the host's program nor whether a command is in progress is asked. -/
theorem step_of_sched_cons {s : State} {t : Turn} {rest : List Turn} (h : s.sched = t :: rest) :
    step s = takeTurn t { s with sched := rest } := by
  rw [step, chooseTurn_sched h]

/-- Settles O14: with an entry in the schedule the step is that agent's turn, and each of the three agents can be the
entry. -/
theorem anyAgentMayMoveNext : Obligations.AnyAgentMayMoveNext := by
  intro s rest
  refine ⟨?host, ?engine, ?reset⟩
  case host => exact step_of_sched_cons (t := .host) rfl
  case engine => exact step_of_sched_cons (t := .engine) rfl
  case reset => exact step_of_sched_cons (t := .reset) rfl

end Sys2Proof.Machine
end

section
/-! What the secret-bearing elements reach (R30, D6, D22): a read, the choice of the next agent and every step but a round of
ENCRYPT or DECRYPT answer the same from a state and from that state with SECRET, KM, the PRF values and the working block
blanked, up to these elements themselves. -/

namespace Sys2Proof.Machine

open Config

/-- An answer with the secret-bearing elements of its next state blanked. -/
def openResult : Result → Result
  | .next s => .next s.open_
  | .fault f => .fault f
  | .refused r => .refused r

@[simp] theorem openResult_next (s : State) : openResult (.next s) = .next s.open_ := rfl

theorem openResult_eq_next {r : Result} {u : State} (h : openResult r = .next u) : ∃ t, r = .next t ∧ u = t.open_ := by
  cases r with
  | next t => cases h; exact ⟨t, rfl, rfl⟩
  | fault f => cases h
  | refused f => cases h

theorem openResult_eq_fault {r : Result} {f : Fault} (h : openResult r = .fault f) : r = .fault f := by
  cases r with
  | next t => cases h
  | fault g => exact h
  | refused g => cases h

@[simp] theorem open_keyValid (s : State) : s.open_.keyValid = s.keyValid := rfl
@[simp] theorem open_secretLen (s : State) : s.open_.secretLen = s.secretLen := rfl
@[simp] theorem open_blockLen (s : State) : s.open_.blockLen = s.blockLen := rfl
@[simp] theorem open_phase (s : State) : s.open_.phase = s.phase := rfl
@[simp] theorem open_program (s : State) : s.open_.program = s.program := rfl
@[simp] theorem open_sched (s : State) : s.open_.sched = s.sched := rfl
@[simp] theorem open_waited (s : State) : s.open_.waited = s.waited := rfl
@[simp] theorem open_tick (s : State) : s.open_.tick = s.tick := rfl

theorem busy_open (s : State) : busy s.open_ = busy s := rfl

theorem readReg_open (r : Reg) (s : State) : readReg r s.open_ = readReg r s := by cases r <;> rfl

theorem busRead_open (off : BitVec 12) (size : Nat) (s : State) : busRead off size s.open_ = busRead off size s := by
  simp only [busRead, readReg_open]

theorem unlessBusy_open (f : State → State) (hf : ∀ x : State, (f x.open_).open_ = (f x).open_) (s : State) :
    (unlessBusy f s.open_).open_ = (unlessBusy f s).open_ := by
  cases hb : busy s with
  | true => rw [unlessBusy_busy _ hb, unlessBusy_busy f ((busy_open s).trans hb)]; rfl
  | false => rw [unlessBusy_idle _ hb, unlessBusy_idle f ((busy_open s).trans hb), hf]

theorem acceptDerive_open (s : State) : (acceptDerive s.open_).open_ = (acceptDerive s).open_ := by
  unfold acceptDerive
  rw [open_secretLen]
  split <;> rfl

theorem acceptEncrypt_open (s : State) : (acceptEncrypt s.open_).open_ = (acceptEncrypt s).open_ := by
  unfold acceptEncrypt
  rw [open_keyValid, open_blockLen]
  split
  · rfl
  · split <;> rfl

theorem acceptDecrypt_open (s : State) : (acceptDecrypt s.open_).open_ = (acceptDecrypt s).open_ := by
  unfold acceptDecrypt
  rw [open_keyValid, open_blockLen]
  split
  · rfl
  · split <;> rfl

/-- Which arm a command takes is read off the lengths and KEY_VALID; what it starts from is itself secret-bearing. -/
theorem acceptArm_open (i : Instr) (s : State) : (acceptArm i s.open_).open_ = (acceptArm i s).open_ := by
  cases i with
  | nop => rfl
  | derive => exact acceptDerive_open s
  | encrypt => exact acceptEncrypt_open s
  | decrypt => exact acceptDecrypt_open s
  | zeroize => rfl

theorem writeReg_open (r : Reg) (w : Word) (s : State) :
    openResult (writeReg r w s.open_) = openResult (writeReg r w s) := by
  rw [writeReg_eq, writeReg_eq, openResult_next, openResult_next]
  congr 1
  cases r with
  | cmd =>
    refine unlessBusy_open _ (fun x => ?_) s
    cases decode w with
    | ok i => exact acceptArm_open i { x with lastOp := opcodeOf i }
    | error e => rfl
  | secretLen => exact unlessBusy_open _ (fun _ => rfl) s
  | blockLen => exact unlessBusy_open _ (fun _ => rfl) s
  | secret k => exact unlessBusy_open _ (fun _ => rfl) s
  | blockIn k => exact unlessBusy_open _ (fun _ => rfl) s
  | id | param0 | param1 | blockOut k | ctrl | status => rfl

theorem busWrite_open (off : BitVec 12) (size : Nat) (w : Word) (s : State) :
    openResult (busWrite off size w s.open_) = openResult (busWrite off size w s) := by
  unfold busWrite
  cases accessReg off size with
  | some r => exact writeReg_open r w s
  | none => rfl

/-- A host instruction reads nothing secret-bearing: a read answers the same word, a write overwrites or ignores. -/
theorem runHostOp_open (op : HostOp) (rest : List HostOp) (s : State) :
    openResult (runHostOp op rest s.open_) = openResult (runHostOp op rest s) := by
  cases op with
  | write off size w => exact busWrite_open off size w { s with program := rest }
  | read off size =>
    simp only [runHostOp, busRead_open]
    split <;> rfl
  | check off v =>
    simp only [runHostOp, busRead_open]
    split
    · split <;> rfl
    · rfl
  | poll off mask v =>
    simp only [runHostOp, busRead_open]
    split
    · split <;> rfl
    · rfl

theorem hostStep_open (s : State) : openResult (hostStep s.open_) = openResult (hostStep s) := by
  unfold hostStep
  rw [open_program]
  cases s.program with
  | nil => rfl
  | cons op rest => exact runHostOp_open op rest s

/-- A DERIVE step branches on its counters and writes KM, KEY_VALID, SECRET_LEN and the PRF values, none of the open
elements from a secret-bearing one. -/
theorem deriveStep_open (s : State) : (deriveStep s.open_).open_ = (deriveStep s).open_ := by
  unfold deriveStep
  by_cases hi : s.ksIter.val < ITER
  · rw [dif_pos (c := s.open_.ksIter.val < ITER) hi, dif_pos hi]; simp only [State.open_]
  · rw [dif_neg (c := s.open_.ksIter.val < ITER) hi, dif_neg hi]
    by_cases hb : s.ksBlk.val < KS_BLOCKS
    · rw [dif_pos (c := s.open_.ksBlk.val < KS_BLOCKS) hb, dif_pos hb]; simp only [State.open_]
    · rw [dif_neg (c := s.open_.ksBlk.val < KS_BLOCKS) hb, dif_neg hb]; simp only [State.open_, deriveComplete, complete]

theorem engineStep_open {s : State} (h : ¬(s.phase = .enc ∨ s.phase = .dec)) :
    (engineStep s.open_).open_ = (engineStep s).open_ := by
  have ho := open_phase s
  cases hp : s.phase with
  | idle => rw [engineStep_idle hp, engineStep_idle (ho.trans hp)]; rfl
  | derive => rw [engineStep_derive hp, engineStep_derive (ho.trans hp), deriveStep_open]
  | enc => exact absurd (.inl hp) h
  | dec => exact absurd (.inr hp) h

theorem chooseTurn_open (s : State) : chooseTurn s.open_ = ((chooseTurn s).1, (chooseTurn s).2.open_) := by
  unfold chooseTurn
  rw [busy_open, open_sched, open_program]
  split
  · rfl
  · split
    · rfl
    · rfl
    · rw [open_waited, open_tick]
      split <;> rfl

/-- A step that is no round of a cipher command answers the same up to the secret-bearing elements. -/
theorem step_open {s : State} (h : ¬((chooseTurn s).1 = .engine ∧ (s.phase = .enc ∨ s.phase = .dec))) :
    openResult (step s.open_) = openResult (step s) := by
  have hp : (chooseTurn s).2.phase = s.phase := eq_of_hw State.phase (chooseTurn_hw s) fun _ => rfl
  unfold step
  rw [chooseTurn_open]
  cases ht : (chooseTurn s).1 with
  | host => exact hostStep_open _
  | engine => exact congrArg Host.Outcome.next (engineStep_open (by rw [hp]; exact fun g => h ⟨ht, g⟩))
  | reset => rfl

/-- An engine step never faults. -/
theorem step_fault_host {s : State} {f : Fault} (h : step s = .fault f) : (chooseTurn s).1 = .host := by
  cases ht : (chooseTurn s).1 with
  | host => rfl
  | engine => rw [step_engine ht] at h; cases h
  | reset => rw [step_reset ht] at h; cases h

/-- States alike but for the secret-bearing elements answer alike to every step that is no round of a cipher command. -/
theorem openResult_step_congr {s s' : State} (ho : s.open_ = s'.open_)
    (h : ¬((chooseTurn s).1 = .engine ∧ (s.phase = .enc ∨ s.phase = .dec))) :
    openResult (step s') = openResult (step s) := by
  have hturn : (chooseTurn s').1 = (chooseTurn s).1 := by
    have := congrArg (fun x => (chooseTurn x).1) ho
    simpa only [chooseTurn_open] using this.symm
  have hphase : s'.phase = s.phase := (congrArg State.phase ho).symm
  rw [← step_open h, ho, step_open (by rwa [hturn, hphase])]

/-- Settles O34: blanking the secret-bearing elements changes no read and, up to these elements, no answer of a step, so two
states with the same blanked state read and step alike. -/
theorem secretsStayInside : Obligations.SecretsStayInside := by
  refine ⟨?reads, ?steps, ?faults⟩
  case reads =>
    intro s s' off size ho
    rw [← busRead_open off size s, ho, busRead_open]
  case steps =>
    intro s s' t ho hno ht
    have h := openResult_step_congr ho hno
    rw [ht] at h
    exact openResult_eq_next h
  case faults =>
    intro s s' f ho hf
    have h := openResult_step_congr ho fun g => by simpa [step_fault_host hf] using g.1
    rw [hf] at h
    exact openResult_eq_fault h

end Sys2Proof.Machine
end

section
/-! Acceptance by an idle engine (R129) by its outcomes, and the words that are commands (R60). -/

namespace Sys2Proof.Machine

open Config

/-- Everything the acceptance of a command can do. -/
inductive AcceptOutcome (i : Instr) (s : State) : Prop
  /-- done at once or rejected, by a completion alone -/
  | completes (c : Code) (hz : i ≠ .zeroize) (e : acceptArm i s = complete c s)
  /-- ZEROIZE -/
  | zeroizes (h : i = .zeroize) (e : acceptArm i s = acceptZeroize s)
  /-- the start of a DERIVE -/
  | derives (h : i = .derive) (hl : s.secretLen.toNat ≤ SECRET_MAX)
      (e : acceptArm i s =
        { startLong .derive s with
          keyValid := false, ksK0 := hkey (secretOperand s), ksBlk := 1, ksIter := 1,
          ksU := Bytes.zeros HLEN, ksT := Bytes.zeros HLEN })
  /-- the start of an ENCRYPT or DECRYPT -/
  | ciphers (p : Phase) (h : i = .encrypt ∧ p = .enc ∨ i = .decrypt ∧ p = .dec) (hk : s.keyValid = true)
      (hb : s.blockLen.toNat = BLOCK) (w : Bytes BLOCK) (r : Fin ROUNDS)
      (e : acceptArm i s = { startLong p s with ciW := w, ciRnd := r })

theorem accept_outcome (i : Instr) (s : State) : AcceptOutcome i s := by
  cases i with
  | nop => exact .completes .none nofun rfl
  | zeroize => exact .zeroizes rfl rfl
  | derive =>
    rcases acceptDerive_cases s with ⟨_, e⟩ | ⟨hl, e⟩
    · exact .completes _ nofun e
    · exact .derives rfl hl e
  | encrypt =>
    rcases acceptEncrypt_cases s with ⟨_, e⟩ | ⟨_, _, e⟩ | ⟨hk, hb, e⟩
    · exact .completes _ nofun e
    · exact .completes _ nofun e
    · exact .ciphers .enc (.inl ⟨rfl, rfl⟩) hk hb _ _ e
  | decrypt =>
    rcases acceptDecrypt_cases s with ⟨_, e⟩ | ⟨_, _, e⟩ | ⟨hk, hb, e⟩
    · exact .completes _ nofun e
    · exact .completes _ nofun e
    · exact .ciphers .dec (.inr ⟨rfl, rfl⟩) hk hb _ _ e

/-- A word is its two fields, RSVD above OP (R59). -/
theorem rsvdField_append_opField (w : Word) : rsvdField w ++ opField w = w := by
  ext j hj
  simp only [rsvdField, opField, BitVec.getElem_append, BitVec.getElem_extractLsb']
  split
  · rw [Nat.zero_add, BitVec.getLsbD_eq_getElem]
  · rw [BitVec.getLsbD_eq_getElem (by omega)]; congr 1; omega

theorem opcodeOf_of_ofOpcode {op : BitVec 4} {i : Instr} (h : ofOpcode op = some i) : op = opcodeOf i := by
  revert op
  cases i <;> decide

/-- A command has one word (R60). -/
theorem eq_encode_of_decode {w : Word} {i : Instr} (h : decode w = .ok i) : w = encode i := by
  unfold decode at h
  split at h
  · rename_i hr
    cases ho : ofOpcode (opField w) with
    | some j =>
      rw [ho] at h
      cases h
      rw [← rsvdField_append_opField w, hr, opcodeOf_of_ofOpcode ho, encode]
    | none => rw [ho] at h; cases h
  · cases h

theorem decode_encode (i : Instr) : decode (encode i) = .ok i := by cases i <;> decide

end Sys2Proof.Machine
end

section
/-! The sequencer's invariant over every step (R22, R26, R33 to R37, R126): it speaks of the hardware alone, a completion
establishes it, and each other effect of a step keeps it. -/

namespace Sys2Proof.Machine

open Config

theorem seqInv_hw {s : State} : SeqInv s.hw ↔ SeqInv s := by
  constructor
  · intro h
    exact ⟨h.err, h.lastOp, h.ksClear, h.ciClear, h.counters, h.deriving_, h.ciphering, h.running, h.noKey⟩
  · intro h
    exact ⟨h.err, h.lastOp, h.ksClear, h.ciClear, h.counters, h.deriving_, h.ciphering, h.running, h.noKey⟩

theorem codeBits_le (c : Code) : codeBits c ≤ 4#4 := by cases c <;> decide

theorem opcodeOf_le (i : Instr) : opcodeOf i ≤ 4#4 := by cases i <;> decide

theorem phaseOp_le (p : Phase) : phaseOp p ≤ 4#4 := by cases p <;> decide

/-- A completion clears every internal element and returns to IDLE, so that of the state before it only LAST_OP and the key
material matter. -/
theorem seqInv_complete (c : Code) {s : State} (hop : s.lastOp ≤ 4#4 ∨ s.lastOp = 0xF#4)
    (hkm : s.keyValid = false → s.km = Bytes.zeros DKLEN) : SeqInv (complete c s) where
  err := codeBits_le c
  lastOp := hop
  ksClear _ := ⟨rfl, rfl, rfl, rfl, rfl⟩
  ciClear _ _ := ⟨rfl, rfl⟩
  counters := nofun
  deriving_ := nofun
  ciphering := nofun
  running h := absurd rfl h
  noKey hk _ := hkm hk

/-- The state right after the start of a DERIVE (R90). -/
theorem seqInv_startDerive {s : State} (hi : SeqInv s) (hp : s.phase = .idle) (hl : s.secretLen.toNat ≤ SECRET_MAX)
    (k0 : Bytes BLOCK) :
    SeqInv
      { startLong .derive { s with lastOp := opcodeOf .derive } with
        keyValid := false, ksK0 := k0, ksBlk := 1, ksIter := 1, ksU := Bytes.zeros HLEN, ksT := Bytes.zeros HLEN } where
  err := codeBits_le .none
  lastOp := .inl (opcodeOf_le .derive)
  ksClear h := absurd rfl h
  ciClear _ _ := hi.ciClear (by simp [hp]) (by simp [hp])
  counters _ := ⟨Nat.le_refl 1, Nat.le_refl 1⟩
  deriving_ _ := ⟨hl, rfl⟩
  ciphering := nofun
  running _ := ⟨rfl, rfl, rfl⟩
  noKey _ h := absurd rfl h

/-- The state right after the start of an ENCRYPT or DECRYPT (R108, R109), whatever the working block. -/
theorem seqInv_startCipher {s : State} (hi : SeqInv s) (hp : s.phase = .idle) (hk : s.keyValid = true)
    (hb : s.blockLen.toNat = BLOCK) {p : Phase} (hc : p = .enc ∨ p = .dec) {op : BitVec 4} (ho : op = phaseOp p)
    (w : Bytes BLOCK) (r : Fin ROUNDS) :
    SeqInv { startLong p { s with lastOp := op } with ciW := w, ciRnd := r } where
  err := codeBits_le .none
  lastOp := .inl (ho ▸ phaseOp_le p)
  ksClear _ := hi.ksClear (by simp [hp])
  ciClear h h' := (hc.elim h h').elim
  counters h := by rcases hc with rfl | rfl <;> cases h
  deriving_ h := by rcases hc with rfl | rfl <;> cases h
  ciphering _ := ⟨hk, hb⟩
  running _ := ⟨rfl, rfl, ho⟩
  noKey h := absurd (hk.symm.trans h) (by decide)

/-- The acceptance of a command by an idle engine: rejected or done at once, it completes; else it starts. -/
theorem seqInv_acceptArm (i : Instr) {s : State} (hi : SeqInv s) (hp : s.phase = .idle) :
    SeqInv (acceptArm i { s with lastOp := opcodeOf i }) := by
  have hop := Or.inl (b := opcodeOf i = 0xF#4) (opcodeOf_le i)
  cases accept_outcome i { s with lastOp := opcodeOf i } with
  | completes c _ e => rw [e]; exact seqInv_complete _ hop fun hk => hi.noKey hk (by simp [hp])
  | zeroizes _ e => rw [e]; exact seqInv_complete _ hop fun _ => rfl
  | derives h hl e => subst h; rw [e]; exact seqInv_startDerive hi hp hl _
  | ciphers p h hk hb w r e =>
    rw [e]
    rcases h with ⟨rfl, rfl⟩ | ⟨rfl, rfl⟩
    · exact seqInv_startCipher hi hp hk hb (.inl rfl) rfl w r
    · exact seqInv_startCipher hi hp hk hb (.inr rfl) rfl w r

/-- A DERIVE step that does not complete (R92): whatever it computes, its counters stay at least 1. -/
theorem seqInv_deriveProgress {s : State} (hi : SeqInv s) (hp : s.phase = .derive) (km : Bytes DKLEN)
    {blk : Fin (KS_BLOCKS + 1)} {iter : Fin (ITER + 1)} (u t : Bytes HLEN) (hb : 1 ≤ blk.val) (hj : 1 ≤ iter.val) :
    SeqInv { s with km := km, ksBlk := blk, ksIter := iter, ksU := u, ksT := t } where
  err := hi.err
  lastOp := hi.lastOp
  ksClear h := absurd hp h
  ciClear := hi.ciClear
  counters _ := ⟨hb, hj⟩
  deriving_ := hi.deriving_
  ciphering := hi.ciphering
  running := hi.running
  noKey _ h := absurd hp h

/-- A round of ENCRYPT or DECRYPT that does not complete (R111, R113). -/
theorem seqInv_cipherProgress {s : State} (hi : SeqInv s) (hc : s.phase = .enc ∨ s.phase = .dec) (w : Bytes BLOCK)
    (r : Fin ROUNDS) : SeqInv { s with ciW := w, ciRnd := r } where
  err := hi.err
  lastOp := hi.lastOp
  ksClear := hi.ksClear
  ciClear h h' := (hc.elim h h').elim
  counters := hi.counters
  deriving_ := hi.deriving_
  ciphering := hi.ciphering
  running := hi.running
  noKey := hi.noKey

/-- The completion of ENCRYPT or DECRYPT (R112, R114): KEY_VALID is 1, so nothing is claimed of KM. -/
theorem seqInv_cipherFinish {s : State} (hi : SeqInv s) (hc : s.phase = .enc ∨ s.phase = .dec) (out : Bytes BLOCK) :
    SeqInv (complete .none { s with blockOut := out }) := by
  obtain ⟨hk, _⟩ := hi.ciphering hc
  exact seqInv_complete _ hi.lastOp fun h => absurd (hk.symm.trans h) (by decide)

theorem seqInv_engineStep {s : State} (hi : SeqInv s) : SeqInv (engineStep s) := by
  cases engine_outcome s with
  | idle hp e => rw [e]; exact hi
  | deriveIter hp _ _ e =>
    obtain ⟨hb, _⟩ := hi.counters hp
    rw [e]
    exact seqInv_deriveProgress hi hp s.km _ _ hb (Nat.le_add_left 1 _)
  | deriveBlock hp _ _ _ e =>
    rw [e]
    exact seqInv_deriveProgress hi hp _ _ _ (Nat.le_add_left 1 _) (Nat.le_refl 1)
  | deriveDone _ _ _ _ e => rw [e]; exact seqInv_complete _ hi.lastOp nofun
  | encRound hp _ _ e => rw [e]; exact seqInv_cipherProgress hi (.inl hp) _ _
  | encDone hp _ _ e => rw [e]; exact seqInv_cipherFinish hi (.inl hp) _
  | decRound hp _ _ e => rw [e]; exact seqInv_cipherProgress hi (.inr hp) _ _
  | decDone hp _ _ e => rw [e]; exact seqInv_cipherFinish hi (.inr hp) _

/-- A STATUS write only clears DONE and OVR (R21). -/
theorem seqInv_writeStatus (w : Word) {s : State} (hi : SeqInv s) : SeqInv (writeStatus w s) where
  err := hi.err
  lastOp := hi.lastOp
  ksClear := hi.ksClear
  ciClear := hi.ciClear
  counters := hi.counters
  deriving_ := hi.deriving_
  ciphering := hi.ciphering
  running h := by
    obtain ⟨he, hd, ho⟩ := hi.running h
    exact ⟨he, by simp [hd], ho⟩
  noKey := hi.noKey

/-- A length written while idle: the invariant speaks of the lengths while a command is in progress alone. -/
theorem seqInv_storeLengths {s : State} (hi : SeqInv s) (hp : s.phase = .idle) (sl bl : BitVec 16) :
    SeqInv { s with secretLen := sl, blockLen := bl } where
  err := hi.err
  lastOp := hi.lastOp
  ksClear := hi.ksClear
  ciClear := hi.ciClear
  counters := hi.counters
  deriving_ h := by rw [hp] at h; cases h
  ciphering h := by rw [hp] at h; exact h.elim nofun nofun
  running := hi.running
  noKey := hi.noKey

/-- OVR, CTRL.IE, SECRET and BLOCK_IN are no element the invariant speaks of. -/
theorem seqInv_storeUnconstrained {s : State} (hi : SeqInv s) (ie ovr : Bool) (secret : Bytes SECRET_MAX)
    (blockIn : Bytes BLOCK) : SeqInv { s with ie := ie, ovr := ovr, secret := secret, blockIn := blockIn } :=
  ⟨hi.err, hi.lastOp, hi.ksClear, hi.ciClear, hi.counters, hi.deriving_, hi.ciphering, hi.running, hi.noKey⟩

/-- Settles O35: every internal element is clear at reset, the engine idle and KM zero. -/
theorem sequencerInvariantAtReset : Obligations.SequencerInvariantAtReset where
  err := codeBits_le .none
  lastOp := .inl (opcodeOf_le .nop)
  ksClear _ := ⟨rfl, rfl, rfl, rfl, rfl⟩
  ciClear _ _ := ⟨rfl, rfl⟩
  counters := nofun
  deriving_ := nofun
  ciphering := nofun
  running h := absurd rfl h
  noKey _ _ := rfl

/-- Settles O37: the progress invariant speaks of a command in progress, and the engine is idle at reset. -/
theorem progressInvariantAtReset : Obligations.ProgressInvariantAtReset where
  keyBlock := nofun
  blocks := nofun
  iterations := nofun
  encrypting := nofun
  decrypting := nofun

/-- Each effect a step can have keeps the invariant. -/
theorem seqInv_effect {s u : State} (hi : SeqInv s) (he : Effect s u) : SeqInv u := by
  cases he with
  | engine _ => exact seqInv_engineStep hi
  | reset _ => exact (seqInv_hw (s := assertReset s)).1 ((seqInv_hw (s := State.reset)).2 sequencerInvariantAtReset)
  | unchanged _ => exact hi
  | ctrl w _ => exact seqInv_storeUnconstrained hi _ s.ovr s.secret s.blockIn
  | status w _ => exact seqInv_writeStatus w hi
  | dropped off w _ _ _ => exact seqInv_storeUnconstrained hi s.ie true s.secret s.blockIn
  | accepted i w _ _ hb => exact seqInv_acceptArm i hi (busy_eq_false.1 hb)
  | illegal w _ e _ hb =>
    exact seqInv_complete _ (.inr rfl) fun hk => hi.noKey hk (by simp [busy_eq_false.1 hb])
  | secretLen w _ hb => exact seqInv_storeLengths hi (busy_eq_false.1 hb) _ s.blockLen
  | blockLen w _ hb => exact seqInv_storeLengths hi (busy_eq_false.1 hb) s.secretLen _
  | secret k off w _ _ => exact seqInv_storeUnconstrained hi s.ie s.ovr _ s.blockIn
  | blockIn k off w _ _ => exact seqInv_storeUnconstrained hi s.ie s.ovr s.secret _

/-- Settles O36: the step's effect keeps the invariant, and the invariant speaks of the hardware alone. -/
theorem everyStepKeepsTheSequencerInvariant : Obligations.EveryStepKeepsTheSequencerInvariant := by
  intro s t hi ht
  obtain ⟨u, he, hu⟩ := step_effect ht
  rw [← seqInv_hw, hu, seqInv_hw]
  exact seqInv_effect hi he

end Sys2Proof.Machine
end

section
/-! The control registers of the window at their offsets (R15 to R21, R27, R28): the register an access reaches, and the fields
of the words they read. -/

namespace Sys2Proof.Machine

open Config

theorem busRead_of_access {off : BitVec 12} {size : Nat} {r : Reg} (h : accessReg off size = some r) (s : State) :
    busRead off size s = some (readReg r s) := by simp [busRead, h]

theorem busWrite_of_access {off : BitVec 12} {size : Nat} {r : Reg} (h : accessReg off size = some r) (w : Word)
    (s : State) : busWrite off size w s = writeReg r w s := by simp [busWrite, h]

theorem accessReg_id : accessReg 0x000#12 4 = some .id := by decide
theorem accessReg_param0 : accessReg 0x004#12 4 = some .param0 := by decide
theorem accessReg_param1 : accessReg 0x008#12 4 = some .param1 := by decide
theorem accessReg_ctrl : accessReg 0x010#12 4 = some .ctrl := by decide
theorem accessReg_cmd : accessReg 0x014#12 4 = some .cmd := by decide
theorem accessReg_status : accessReg 0x018#12 4 = some .status := by decide
theorem accessReg_secretLen : accessReg 0x01C#12 4 = some .secretLen := by decide
theorem accessReg_blockLen : accessReg 0x020#12 4 = some .blockLen := by decide

/-- Settles O18: the constant registers are read-only, and their constants are the parameters put together. -/
theorem constantRegisters : Obligations.ConstantRegisters := by
  refine ⟨fun s => ⟨?_, ?_, ?_⟩, fun s w => ⟨?_, ?_, ?_⟩, by decide, by decide⟩
  · exact busRead_of_access accessReg_id s
  · exact busRead_of_access accessReg_param0 s
  · exact busRead_of_access accessReg_param1 s
  · exact busWrite_of_access accessReg_id w s
  · exact busWrite_of_access accessReg_param0 w s
  · exact busWrite_of_access accessReg_param1 w s

theorem bitWord_eq (b : Bool) : bitWord b = if b then 1#32 else 0#32 := by cases b <;> rfl

/-- Settles O20: CTRL is IE alone, and its write is not gated by the engine being busy. -/
theorem controlRegister : Obligations.ControlRegister := by
  refine ⟨fun s w => ?_, fun s => ?_, fun _ => rfl, ?_⟩
  · exact busWrite_of_access accessReg_ctrl w s
  · rw [busRead_of_access accessReg_ctrl, readReg, bitWord_eq]
  · exact busRead_of_access accessReg_ctrl State.reset

@[simp] theorem getLsbD_bitWord (b : Bool) (j : Nat) : (bitWord b).getLsbD j = (decide (j = 0) && b) := by
  cases b <;> rcases j with _ | j <;> simp [bitWord]

@[simp] theorem getElem_bitWord (b : Bool) {j : Nat} (hj : j < 32) : (bitWord b)[j] = (decide (j = 0) && b) := by
  rw [← BitVec.getLsbD_eq_getElem, getLsbD_bitWord]

theorem busy_eq_decide (s : State) : busy s = decide (s.phase ≠ .idle) := by
  unfold busy
  cases s.phase <;> rfl

/-- Bit `j` of the STATUS word, each field at its place (R21). -/
theorem getLsbD_statusWord (s : State) {j : Nat} (hj : j < 32) :
    (statusWord s).getLsbD j =
      (if j = 0 then busy s else if j = 1 then s.done else if j = 2 then s.keyValid else if j = 3 then s.ovr
        else if j < 8 then false else if j < 12 then s.err.getLsbD (j - 8) else s.lastOp.getLsbD (j - 12)) := by
  have herr (n : Nat) (h : 4 ≤ n) : s.err.getLsbD n = false := BitVec.getLsbD_of_ge _ _ h
  simp [statusWord, hj]
  grind

theorem busRead_status (s : State) : busRead 0x018#12 4 s = some (statusWord s) := busRead_of_access accessReg_status s

/-- Settles O19: the STATUS word is read bit by bit off its fields, and a write touches the two W1C fields alone. -/
theorem statusFields : Obligations.StatusFields := by
  refine ⟨fun s => ⟨_, busRead_status s, ?busy, ?done, ?keyValid, ?ovr, ?reserved, ?err, ?lastOp, ?high⟩,
    fun s w => ?write, ?reset⟩
  case busy => rw [getLsbD_statusWord s (by omega), if_pos rfl, busy_eq_decide]
  case done => exact getLsbD_statusWord s (by omega)
  case keyValid => exact getLsbD_statusWord s (by omega)
  case ovr => exact getLsbD_statusWord s (by omega)
  case reserved | err | lastOp | high =>
    ext j hj
    rw [BitVec.getElem_extractLsb', getLsbD_statusWord s (by omega)]
    grind
  case write => exact busWrite_of_access accessReg_status w s
  case reset => exact busRead_status State.reset

/-- A length register is 16 bits wide: the other half of the word is lost by a write and read as 0 (R27, R28). -/
theorem low_half_readBack (w : Word) : (w.extractLsb' 0 16).setWidth 32 = w &&& 0x0000FFFF#32 := by
  apply BitVec.eq_of_toNat_eq
  have hmod : w.toNat &&& 65535 = w.toNat % 65536 := Nat.and_two_pow_sub_one_eq_mod w.toNat 16
  simp [hmod]
  omega

theorem toNat_low_half (w : Word) : (w.extractLsb' 0 16).toNat = w.toNat % 2 ^ 16 := by simp

/-- Settles O21: an access of a length register reaches its field, gated by the engine being busy. -/
theorem lengthRegistersReadBack : Obligations.LengthRegistersReadBack := by
  have hsl (w : Word) (s : State) := busWrite_of_access accessReg_secretLen w s
  have hbl (w : Word) (s : State) := busWrite_of_access accessReg_blockLen w s
  refine ⟨fun s w hb => ⟨?_, ?_⟩, fun s w hb => ⟨?_, ?_⟩, fun s t w hb ht => ?_, fun s t w hb ht => ?_⟩
  · rw [hsl, writeReg, unlessBusy_idle _ hb, storeSecretLen]
  · rw [hbl, writeReg, unlessBusy_idle _ hb, storeBlockLen]
  · rw [hsl, writeReg, unlessBusy_busy _ hb, dropWrite]
  · rw [hbl, writeReg, unlessBusy_busy _ hb, dropWrite]
  · rw [hsl, writeReg, unlessBusy_idle _ hb] at ht
    cases ht
    exact ⟨(busRead_of_access accessReg_secretLen _).trans (congrArg some (low_half_readBack w)), toNat_low_half w⟩
  · rw [hbl, writeReg, unlessBusy_idle _ hb] at ht
    cases ht
    exact ⟨(busRead_of_access accessReg_blockLen _).trans (congrArg some (low_half_readBack w)), toNat_low_half w⟩

/-- A legal command word written to CMD is the issue of its command (R20, R129). -/
theorem busWrite_cmd_of_decode {w : Word} {i : Instr} (h : decode w = .ok i) (s : State) :
    busWrite 0x014#12 4 w s = exec i s := by
  rw [busWrite_of_access accessReg_cmd, writeReg, issueWord, h]

/-- A host step whose next instruction is a write is that bus write, the program moved past it (R67). -/
theorem step_of_write {s : State} {off : BitVec 12} {w : Word} {rest : List HostOp} (hc : (chooseTurn s).1 = .host)
    (hp : s.program = .write off 4 w :: rest) :
    step s = busWrite off 4 w { (chooseTurn s).2 with program := rest } := by
  rw [step_host hc, hostStep, chooseTurn_program, hp]
  rfl

theorem decode_of_decodeTableWord {nbits w : Nat} {i : Instr} (h : decodeTableWord nbits w = some i) :
    decode (BitVec.ofNat 32 (w % 2 ^ nbits)) = .ok i := by
  unfold decodeTableWord at h
  split at h
  · cases hd : decode (BitVec.ofNat 32 (w % 2 ^ nbits)) with
    | ok j => rw [hd] at h; cases h; rfl
    | error e => rw [hd] at h; cases h
  · cases h

/-- Settles O13: the step is the host's CMD write, which issues the word's command; `withFetchWord` makes the host next and
that write its next instruction (log entry 7). -/
theorem stepRunsTheIssuedCommand : Obligations.StepRunsTheIssuedCommand := by
  refine ⟨fun s i w rest hd hc hp => ?_, fun s i nbits w hd => ?_⟩
  · rw [step_of_write hc hp, busWrite_cmd_of_decode hd]
  · have hturn : chooseTurn (s.withFetchWord nbits w) = (.host, { s.withFetchWord nbits w with sched := s.sched }) :=
      chooseTurn_sched rfl
    rw [step_of_write (by rw [hturn]) rfl, busWrite_cmd_of_decode (decode_of_decodeTableWord hd), hturn]
    rfl

end Sys2Proof.Machine
end

section
/-! The views of the key material (R31, R32). -/

namespace Sys2Proof.Machine

open Config

/-- Consecutive chunks of `k` bytes put together are the bytes they are cut from. -/
theorem flatten_chunks {α : Type} (l : List α) (k n : Nat) :
    ((List.range n).map fun i => (l.drop (k * i)).take k).flatten = l.take (k * n) := by
  induction n with
  | zero => simp
  | succ n ih => rw [List.range_succ, List.map_append, List.flatten_append, ih, Nat.mul_succ, List.take_add]; simp

/-- The round keys in order are bytes 64 to 383 of KM. -/
theorem flatten_roundKeys (km : Bytes DKLEN) :
    ((List.finRange 10).map fun i => (roundKey km i).data).flatten = (km.data.drop 64).take 320 := by
  have h := flatten_chunks (km.data.drop 64) 32 10
  rw [← List.map_coe_finRange_eq_range, List.map_map] at h
  simp only [roundKey, sliceBytes]
  rw [← h]
  simp [Function.comp_def]

/-- Settles O52: prekey is the first 64 bytes, the round keys the 320 after them, postkey the 64 that remain. -/
theorem viewsTileTheKeyMaterial : Obligations.ViewsTileTheKeyMaterial := by
  intro km
  have hpre : (prekey km).data = km.data.take 64 := by simp [prekey, sliceBytes]
  have hpost : (postkey km).data = km.data.drop 384 :=
    List.take_of_length_le (by rw [List.length_drop, km.len]; decide)
  rw [flatten_roundKeys, hpre, hpost, ← List.take_add, List.take_append_drop]

end Sys2Proof.Machine
end

section
/-! What a step does when the host is next with a given write: the converse of what `Effect` says of each write. -/

namespace Sys2Proof.Machine

open Config

/-- The hardware after the host's write is that write's update of the hardware before. -/
theorem step_hw_of_write {f : State → State} {s t : State} {off : BitVec 12} {w : Word} (hn : hostWritesNext s off w)
    (ht : step s = .next t) (hf : ∀ x : State, f x.hw = (f x).hw)
    (hx : ∀ x : State, x.hw = s.hw → busWrite off 4 w x = .next (f x)) : t.hw = (f s).hw := by
  obtain ⟨hc, rest, hp⟩ := hn
  have hs : State.hw { (chooseTurn s).2 with program := rest } = s.hw := chooseTurn_hw s
  rw [step_of_write hc hp, hx _ hs] at ht
  cases ht
  rw [← hf, hs, hf]

theorem step_statusWrite {s t : State} {w : Word} (hn : hostWritesNext s 0x018#12 w) (ht : step s = .next t) :
    t.hw = (writeStatus w s).hw :=
  step_hw_of_write hn ht (fun _ => rfl) fun x _ => busWrite_of_access accessReg_status w x

/-- A command accepted: its acceptance arm, LAST_OP recorded. -/
theorem step_accepts {s t : State} {i : Instr} (h : acceptsNext s i) (ht : step s = .next t) :
    t.hw = (acceptArm i { s with lastOp := opcodeOf i }).hw := by
  obtain ⟨hn, hb⟩ := h
  refine step_hw_of_write (f := fun x => acceptArm i { x with lastOp := opcodeOf i }) hn ht
    (fun x => acceptArm_hw i { x with lastOp := opcodeOf i }) fun x hx => ?_
  rw [busWrite_cmd_of_decode (decode_encode i), exec_idle i (by rw [busy_of_hw hx, hb])]

/-- The registers behind the offsets of R49. -/
theorem accessReg_of_dropsWhileBusy {off : BitVec 12} (h : dropsWhileBusy off) :
    ∃ r, accessReg off 4 = some r ∧
      (r = .cmd ∨ r = .secretLen ∨ r = .blockLen ∨ (∃ k, r = .secret k) ∨ ∃ k, r = .blockIn k) := by
  obtain ⟨h4, rfl | rfl | rfl | ⟨hlo, hhi⟩⟩ := h
  · exact ⟨_, accessReg_cmd, .inl rfl⟩
  · exact ⟨_, accessReg_secretLen, .inr (.inl rfl)⟩
  · exact ⟨_, accessReg_blockLen, .inr (.inr (.inl rfl))⟩
  · rw [accessReg_word h4]
    by_cases h128 : off.toNat / 4 < 128
    · obtain ⟨k, hk⟩ : ∃ k : Fin 64, off.toNat / 4 = 64 + k.val :=
        ⟨⟨off.toNat / 4 - 64, by omega⟩, by simp only; omega⟩
      exact ⟨_, by rw [hk, regOfWord_secret], .inr (.inr (.inr (.inl ⟨k, rfl⟩)))⟩
    · obtain ⟨k, hk⟩ : ∃ k : Fin 16, off.toNat / 4 = 128 + k.val :=
        ⟨⟨off.toNat / 4 - 128, by omega⟩, by simp only; omega⟩
      exact ⟨_, by rw [hk, regOfWord_blockIn], .inr (.inr (.inr (.inr ⟨k, rfl⟩)))⟩

/-- A write that R49 drops sets OVR alone. -/
theorem busWrite_dropped {off : BitVec 12} (h : dropsWhileBusy off) (w : Word) {s : State} (hb : busy s = true) :
    busWrite off 4 w s = .next (dropWrite s) := by
  obtain ⟨r, hr, hcase⟩ := accessReg_of_dropsWhileBusy h
  rw [busWrite_of_access hr, writeReg_eq]
  rcases hcase with rfl | rfl | rfl | ⟨k, rfl⟩ | ⟨k, rfl⟩ <;> exact congrArg _ (unlessBusy_busy _ hb)

theorem step_dropped {s t : State} {off : BitVec 12} {w : Word} (hb : busy s = true) (hn : hostWritesNext s off w)
    (hd : dropsWhileBusy off) (ht : step s = .next t) : t.hw = (dropWrite s).hw :=
  step_hw_of_write hn ht (fun _ => rfl) fun _ hx => busWrite_dropped hd w ((busy_of_hw hx).trans hb)

/-- What an accepted command's word is: the one word of its command. -/
theorem acceptsNext_of_decode {s : State} {i : Instr} {w : Word} (hn : hostWritesNext s 0x014#12 w) (hd : decode w = .ok i)
    (hb : busy s = false) : acceptsNext s i := by
  rw [eq_encode_of_decode hd] at hn
  exact ⟨hn, hb⟩

end Sys2Proof.Machine
end

section
/-! OVR over every step (R25, R49). -/

namespace Sys2Proof.Machine

open Config

theorem engineStep_ovr (s : State) : (engineStep s).ovr = s.ovr := by
  cases engine_outcome s with
  | idle _ e | deriveIter _ _ _ e | deriveBlock _ _ _ _ e | deriveDone _ _ _ _ e | encRound _ _ _ e | encDone _ _ _ e
  | decRound _ _ _ e | decDone _ _ _ e => exact (congrArg State.ovr e :)

theorem acceptArm_ovr (i : Instr) (s : State) : (acceptArm i s).ovr = s.ovr := by
  cases accept_outcome i s with
  | completes _ _ e | zeroizes _ e | derives _ _ e | ciphers _ _ _ _ _ _ e => exact (congrArg State.ovr e :)

/-- No acceptance arm reads OVR. -/
theorem acceptArm_with_ovr (i : Instr) (s : State) (b : Bool) :
    acceptArm i { s with ovr := b } = { acceptArm i s with ovr := b } := by
  cases i with
  | nop => rfl
  | derive =>
    unfold acceptArm acceptDerive
    simp only
    split <;> rfl
  | encrypt =>
    unfold acceptArm acceptEncrypt
    simp only
    split
    · rfl
    · split <;> rfl
  | decrypt =>
    unfold acceptArm acceptDecrypt
    simp only
    split
    · rfl
    · split <;> rfl
  | zeroize => rfl

/-- What a step can do to OVR: reset clears it, a STATUS write with bit 3 clears it, a dropped write sets it. -/
theorem effect_ovr {s u : State} (he : Effect s u) :
    ((chooseTurn s).1 = .reset ∧ u.ovr = false) ∨
    (∃ w, hostWritesNext s 0x018#12 w ∧ u.ovr = (s.ovr && !w.getLsbD 3)) ∨
    (busy s = true ∧ (∃ off w, hostWritesNext s off w ∧ dropsWhileBusy off) ∧ u.ovr = true) ∨
    u.ovr = s.ovr := by
  cases he with
  | reset hc => exact .inl ⟨hc, rfl⟩
  | status w hn => exact .inr (.inl ⟨w, hn, rfl⟩)
  | dropped off w hn hd hb => exact .inr (.inr (.inl ⟨hb, ⟨off, w, hn, hd⟩, rfl⟩))
  | engine _ => exact .inr (.inr (.inr (engineStep_ovr s)))
  | accepted i _ _ _ _ => exact .inr (.inr (.inr (acceptArm_ovr i _)))
  | unchanged _ | ctrl _ _ | illegal _ _ _ _ _ | secretLen _ _ _ | blockLen _ _ _ | secret _ _ _ _ _ | blockIn _ _ _ _ _ =>
    exact .inr (.inr (.inr rfl))

/-- Settles O26: of all effects a dropped write alone sets OVR, and reset and a STATUS write with bit 3 alone clear it. -/
theorem ovrIsSticky : Obligations.OvrIsSticky := by
  refine ⟨fun s t ht h0 => ?set, fun s t ht h1 => ?clear, fun i s t b hb ht => ?commands, fun s b => rfl⟩
  case set =>
    obtain ⟨u, he, hu⟩ := step_effect ht
    have ho : t.ovr = u.ovr := eq_of_hw State.ovr hu fun _ => rfl
    constructor
    · intro h
      rw [ho] at h
      rcases effect_ovr he with ⟨_, e⟩ | ⟨w, _, e⟩ | ⟨hb, hw, _⟩ | e
      · simp [e] at h
      · simp [e, h0] at h
      · exact ⟨hb, hw⟩
      · simp [e, h0] at h
    · rintro ⟨hb, off, w, hn, hd⟩
      exact eq_of_hw State.ovr (step_dropped hb hn hd ht) fun _ => rfl
  case clear =>
    obtain ⟨u, he, hu⟩ := step_effect ht
    have ho : t.ovr = u.ovr := eq_of_hw State.ovr hu fun _ => rfl
    constructor
    · intro h
      rw [ho] at h
      rcases effect_ovr he with ⟨hc, _⟩ | ⟨w, hn, e⟩ | ⟨_, _, e⟩ | e
      · exact .inl hc
      · exact .inr ⟨w, hn, by simpa [e, h1] using h⟩
      · simp [e] at h
      · simp [e, h1] at h
    · rintro (hc | ⟨w, hn, h3⟩)
      · rw [step_reset hc] at ht
        cases ht
        rfl
      · exact (eq_of_hw State.ovr (step_statusWrite hn ht) fun _ => rfl).trans (by simp [h3])
  case commands =>
    rw [exec_idle i hb] at ht
    cases ht
    rw [exec_idle i (s := { s with ovr := b }) hb]
    exact congrArg Host.Outcome.next (acceptArm_with_ovr i { s with lastOp := opcodeOf i } b)

end Sys2Proof.Machine
end

section
/-! DONE, KEY_VALID, BLOCK_OUT and PHASE over every step (R23, R24, R29, R33): what each effect does to them. -/

namespace Sys2Proof.Machine

open Config

/-- An acceptance leaves the engine busy or DONE set, and not both (R129, R130). -/
theorem acceptArm_done (i : Instr) (s : State) : (acceptArm i s).done = !busy (acceptArm i s) := by
  cases accept_outcome i s with
  | completes _ _ e | zeroizes _ e | derives _ _ e => rw [e]; rfl
  | ciphers p h _ _ _ _ e => rw [e]; rcases h with ⟨_, rfl⟩ | ⟨_, rfl⟩ <;> rfl

/-- What a step can do to DONE: the completion of a command in progress sets it, reset and a STATUS write with bit 1 clear
it, a CMD write to an idle engine sets it unless a long command starts. -/
theorem effect_done {s u : State} (he : Effect s u) :
    (completesNext s ∧ u.done = true) ∨
    ((chooseTurn s).1 = .reset ∧ u.done = false) ∨
    (∃ w, hostWritesNext s 0x018#12 w ∧ u.done = (s.done && !w.getLsbD 1) ∧ busy u = busy s) ∨
    (busy s = false ∧ (∃ w, hostWritesNext s 0x014#12 w) ∧ u.done = !busy u) ∨
    (u.done = s.done ∧ busy u = busy s) := by
  cases he with
  | engine hc =>
    by_cases hl : stepsLeft s = 1
    · obtain ⟨hd, _, _⟩ := engineStep_completes hl
      exact .inl ⟨⟨hc, hl⟩, hd⟩
    · obtain ⟨hd, hp, _⟩ := engineStep_continues hl
      exact .inr (.inr (.inr (.inr ⟨hd, by simp only [busy, hp]⟩)))
  | reset hc => exact .inr (.inl ⟨hc, rfl⟩)
  | status w hn => exact .inr (.inr (.inl ⟨w, hn, rfl, rfl⟩))
  | accepted i w hn _ hb => exact .inr (.inr (.inr (.inl ⟨hb, ⟨w, hn⟩, acceptArm_done i _⟩)))
  | illegal w hn _ _ hb => exact .inr (.inr (.inr (.inl ⟨hb, ⟨w, hn⟩, rfl⟩)))
  | unchanged _ | ctrl _ _ | dropped _ _ _ _ _ | secretLen _ _ _ | blockLen _ _ _ | secret _ _ _ _ _ | blockIn _ _ _ _ _ =>
    exact .inr (.inr (.inr (.inr ⟨rfl, rfl⟩)))

theorem busy_of_completesNext {s : State} (h : completesNext s) : busy s = true := by
  obtain ⟨_, hl⟩ := h
  rw [busy_eq_true]
  intro hp
  rw [stepsLeft_idle hp] at hl
  omega

theorem step_completes {s t : State} (h : completesNext s) (ht : step s = .next t) :
    t.done = true ∧ t.phase = .idle ∧ t.err = 0#4 := by
  obtain ⟨hc, hl⟩ := h
  have hu := step_engine_hw hc ht
  obtain ⟨hd, hp, he⟩ := engineStep_completes hl
  exact ⟨(eq_of_hw State.done hu fun _ => rfl).trans hd, (eq_of_hw State.phase hu fun _ => rfl).trans hp,
    (eq_of_hw State.err hu fun _ => rfl).trans he⟩

/-- Settles O27: of all effects completions alone set DONE, and reset, a STATUS write with bit 1 and the start of a long
command alone clear it. -/
theorem doneIsSetByCompletionsOnly : Obligations.DoneIsSetByCompletionsOnly := by
  intro s t _ ht
  obtain ⟨u, he, hu⟩ := step_effect ht
  have hd : t.done = u.done := eq_of_hw State.done hu fun _ => rfl
  have hbusy : busy t = busy u := busy_of_hw hu
  refine ⟨fun h0 h1 => ?set, fun hn => (step_completes hn ht).1, fun h1 => ⟨fun h0 => ?clear, ?cleared⟩⟩
  case set =>
    rw [hd] at h1
    rcases effect_done he with ⟨hn, _⟩ | ⟨_, e⟩ | ⟨w, _, e, _⟩ | ⟨hb, hw, e⟩ | ⟨e, _⟩
    · exact .inl hn
    · simp [e] at h1
    · simp [e, h0] at h1
    · exact .inr ⟨hb, by simpa [hbusy, e] using h1, hw⟩
    · simp [e, h0] at h1
  case clear =>
    rw [hd] at h0
    rcases effect_done he with ⟨_, e⟩ | ⟨hc, _⟩ | ⟨w, hn, e, _⟩ | ⟨hb, _, e⟩ | ⟨e, _⟩
    · simp [e] at h0
    · exact .inl hc
    · exact .inr (.inl ⟨w, hn, by simpa [e, h1] using h0⟩)
    · exact .inr (.inr ⟨hb, by simpa [hbusy, e] using h0⟩)
    · simp [e, h1] at h0
  case cleared =>
    rintro (hc | ⟨w, hn, h⟩ | ⟨hs, hb⟩)
    · rw [step_reset hc] at ht
      cases ht
      rfl
    · exact (eq_of_hw State.done (step_statusWrite hn ht) fun _ => rfl).trans (by simp [h])
    · rw [hbusy] at hb
      rcases effect_done he with ⟨hn, _⟩ | ⟨_, e⟩ | ⟨w, _, _, e⟩ | ⟨_, _, e⟩ | ⟨_, e⟩
      · rw [busy_of_completesNext hn] at hs
        cases hs
      · rw [hd, e]
      · rw [e, hs] at hb
        cases hb
      · rw [hd, e, hb]
        rfl
      · rw [e, hs] at hb
        cases hb

/-- The completion of a DERIVE sets KEY_VALID; no other engine step touches KEY_VALID. -/
theorem engineStep_keyValid (s : State) :
    (stepsLeft s = 1 ∧ s.phase = .derive ∧ (engineStep s).keyValid = true) ∨
    (¬(stepsLeft s = 1 ∧ s.phase = .derive) ∧ (engineStep s).keyValid = s.keyValid) := by
  cases engine_outcome s with
  | deriveDone hp hl _ _ e => exact .inl ⟨hl, hp, (congrArg State.keyValid e :)⟩
  | deriveIter _ hl _ e | deriveBlock _ hl _ _ e | encRound _ hl _ e | decRound _ hl _ e =>
    exact .inr ⟨fun h => hl h.1, (congrArg State.keyValid e :)⟩
  | idle hp e | encDone hp _ _ e | decDone hp _ _ e =>
    exact .inr ⟨fun h => by simp [hp] at h, (congrArg State.keyValid e :)⟩

/-- What a step can do to KEY_VALID. -/
theorem effect_keyValid {s u : State} (he : Effect s u) :
    (completesNext s ∧ s.phase = .derive ∧ u.keyValid = true) ∨
    (((chooseTurn s).1 = .reset ∨ acceptsNext s .zeroize ∨ (acceptsNext s .derive ∧ s.secretLen.toNat ≤ 256)) ∧
      u.keyValid = false) ∨
    u.keyValid = s.keyValid := by
  cases he with
  | engine hc =>
    rcases engineStep_keyValid s with ⟨hl, hp, e⟩ | ⟨_, e⟩
    · exact .inl ⟨⟨hc, hl⟩, hp, e⟩
    · exact .inr (.inr e)
  | reset hc => exact .inr (.inl ⟨.inl hc, rfl⟩)
  | accepted i w hn hd hb =>
    have ha := acceptsNext_of_decode hn hd hb
    cases accept_outcome i { s with lastOp := opcodeOf i } with
    | completes _ _ e | ciphers _ _ _ _ _ _ e => exact .inr (.inr (congrArg State.keyValid e :))
    | zeroizes h e => exact .inr (.inl ⟨.inr (.inl (h ▸ ha)), (congrArg State.keyValid e :)⟩)
    | derives h hl e => exact .inr (.inl ⟨.inr (.inr ⟨h ▸ ha, hl⟩), (congrArg State.keyValid e :)⟩)
  | unchanged _ | ctrl _ _ | status _ _ | dropped _ _ _ _ _ | illegal _ _ _ _ _ | secretLen _ _ _ | blockLen _ _ _
  | secret _ _ _ _ _ | blockIn _ _ _ _ _ => exact .inr (.inr rfl)

/-- Settles O28: of all effects the completion of a DERIVE alone sets KEY_VALID, and reset, ZEROIZE and the start of a DERIVE
alone clear it. -/
theorem instanceLifetime : Obligations.InstanceLifetime := by
  intro s t _ ht
  obtain ⟨u, he, hu⟩ := step_effect ht
  have hk : t.keyValid = u.keyValid := eq_of_hw State.keyValid hu fun _ => rfl
  refine ⟨fun h0 => ⟨fun h1 => ?begin, ?begun⟩, fun h1 => ⟨fun h0 => ?finish, ?finished⟩⟩
  case begin =>
    rw [hk] at h1
    rcases effect_keyValid he with ⟨hn, hp, _⟩ | ⟨_, e⟩ | e
    · exact ⟨hn, hp⟩
    · simp [e] at h1
    · simp [e, h0] at h1
  case begun =>
    rintro ⟨⟨hc, hl⟩, hp⟩
    have ht := eq_of_hw State.keyValid (step_engine_hw hc ht) fun _ => rfl
    rcases engineStep_keyValid s with ⟨_, _, e⟩ | ⟨hno, _⟩
    · exact ht.trans e
    · exact absurd ⟨hl, hp⟩ hno
  case finish =>
    rw [hk] at h0
    rcases effect_keyValid he with ⟨_, _, e⟩ | ⟨hend, _⟩ | e
    · simp [e] at h0
    · exact hend
    · simp [e, h1] at h0
  case finished =>
    rintro (hc | ha | ⟨ha, hl⟩)
    · rw [step_reset hc] at ht
      cases ht
      rfl
    · exact eq_of_hw State.keyValid (step_accepts ha ht) fun _ => rfl
    · rcases acceptDerive_cases { s with lastOp := opcodeOf .derive } with ⟨hgt, _⟩ | ⟨_, e⟩
      · exact absurd hl (Nat.not_le_of_lt hgt)
      · exact (eq_of_hw State.keyValid (step_accepts ha ht) fun _ => rfl).trans (congrArg State.keyValid e :)

/-- What a step can do to BLOCK_OUT. -/
theorem effect_blockOut {s u : State} (he : Effect s u) :
    u.blockOut = s.blockOut ∨ (chooseTurn s).1 = .reset ∨ acceptsNext s .zeroize ∨
      (completesNext s ∧ (s.phase = .enc ∨ s.phase = .dec)) := by
  cases he with
  | engine hc =>
    cases engine_outcome s with
    | encDone hp hl _ _ => exact .inr (.inr (.inr ⟨⟨hc, hl⟩, .inl hp⟩))
    | decDone hp hl _ _ => exact .inr (.inr (.inr ⟨⟨hc, hl⟩, .inr hp⟩))
    | idle _ e | deriveIter _ _ _ e | deriveBlock _ _ _ _ e | deriveDone _ _ _ _ e | encRound _ _ _ e | decRound _ _ _ e =>
      exact .inl (congrArg State.blockOut e :)
  | reset hc => exact .inr (.inl hc)
  | accepted i w hn hd hb =>
    cases accept_outcome i { s with lastOp := opcodeOf i } with
    | completes _ _ e | ciphers _ _ _ _ _ _ e | derives _ _ e => exact .inl (congrArg State.blockOut e :)
    | zeroizes h _ => exact .inr (.inr (.inl (h ▸ acceptsNext_of_decode hn hd hb)))
  | unchanged _ | ctrl _ _ | status _ _ | dropped _ _ _ _ _ | illegal _ _ _ _ _ | secretLen _ _ _ | blockLen _ _ _
  | secret _ _ _ _ _ | blockIn _ _ _ _ _ => exact .inl rfl

/-- Settles O30: a step that changes BLOCK_OUT has one of three effects, and a completing step leaves the engine idle, DONE
set and code 0. -/
theorem blockOutChangesAtCompletionOnly : Obligations.BlockOutChangesAtCompletionOnly := by
  intro s t ht hne
  obtain ⟨u, he, hu⟩ := step_effect ht
  rcases effect_blockOut he with e | hc | ha | ⟨hn, hp⟩
  · exact absurd ((eq_of_hw State.blockOut hu fun _ => rfl).trans e) hne
  · exact .inl hc
  · exact .inr (.inl ha)
  · obtain ⟨hd, hidle, herr⟩ := step_completes hn ht
    exact .inr (.inr ⟨hn, hp, busy_eq_false.2 hidle, hd, herr⟩)

/-- What a step can do to PHASE: a start leaves IDLE for the command's phase; reset and the completion of the command in
progress return to it. -/
theorem effect_phase {s u : State} (he : Effect s u) :
    u.phase = s.phase ∨
    (s.phase = .idle ∧ ((acceptsNext s .derive ∧ u.phase = .derive) ∨ (acceptsNext s .encrypt ∧ u.phase = .enc) ∨
      (acceptsNext s .decrypt ∧ u.phase = .dec))) ∨
    (u.phase = .idle ∧ (completesNext s ∨ (chooseTurn s).1 = .reset)) := by
  cases he with
  | engine hc =>
    by_cases hl : stepsLeft s = 1
    · obtain ⟨_, hp, _⟩ := engineStep_completes hl
      exact .inr (.inr ⟨hp, .inl ⟨hc, hl⟩⟩)
    · obtain ⟨_, hp, _⟩ := engineStep_continues hl
      exact .inl hp
  | reset hc => exact .inr (.inr ⟨rfl, .inr hc⟩)
  | accepted i w hn hd hb =>
    have hidle := busy_eq_false.1 hb
    have ha := acceptsNext_of_decode hn hd hb
    cases accept_outcome i { s with lastOp := opcodeOf i } with
    | completes _ _ e | zeroizes _ e => exact .inl ((congrArg State.phase e :).trans hidle.symm)
    | derives h _ e => exact .inr (.inl ⟨hidle, .inl ⟨h ▸ ha, (congrArg State.phase e :)⟩⟩)
    | ciphers p h _ _ _ _ e =>
      rcases h with ⟨rfl, rfl⟩ | ⟨rfl, rfl⟩
      · exact .inr (.inl ⟨hidle, .inr (.inl ⟨ha, (congrArg State.phase e :)⟩)⟩)
      · exact .inr (.inl ⟨hidle, .inr (.inr ⟨ha, (congrArg State.phase e :)⟩)⟩)
  | illegal _ _ _ _ hb => exact .inl (busy_eq_false.1 hb).symm
  | unchanged _ | ctrl _ _ | status _ _ | dropped _ _ _ _ _ | secretLen _ _ _ | blockLen _ _ _ | secret _ _ _ _ _
  | blockIn _ _ _ _ _ => exact .inl rfl

/-- Settles O31: a step that changes PHASE is a start from IDLE, or a completion or reset that returns to it. -/
theorem phaseChangesByAcceptanceAndCompletionOnly : Obligations.PhaseChangesByAcceptanceAndCompletionOnly := by
  refine ⟨fun s t _ ht hne => ?_, fun s => engineStep_idle⟩
  obtain ⟨u, he, hu⟩ := step_effect ht
  have hp : t.phase = u.phase := eq_of_hw State.phase hu fun _ => rfl
  rw [hp] at hne ⊢
  rcases effect_phase he with e | hstart | ⟨hidle, hend⟩
  · exact absurd e hne
  · exact .inl hstart
  · exact .inr ⟨fun h => hne (hidle.trans h.symm), hidle, hend⟩

end Sys2Proof.Machine
end

section
/-! The ranges of the window (R15, R43 to R46): which accesses reach a register, and the registers behind the offsets that only
read, only write or read nothing. -/

namespace Sys2Proof.Machine

open Config

/-- An aligned access reaches the register of its word. -/
theorem accessReg_of_toNat {off : BitVec 12} {n : Nat} (h : off.toNat = 4 * n) : accessReg off 4 = regOfWord n := by
  rw [accessReg_word (by omega), h, Nat.mul_div_cancel_left n (by decide)]

theorem accessReg_secret {off : BitVec 12} (k : Fin 64) (h : off.toNat = 0x100 + 4 * k.val) :
    accessReg off 4 = some (.secret k) := by
  rw [accessReg_of_toNat (n := 64 + k.val) (by omega), regOfWord_secret]

theorem accessReg_blockIn {off : BitVec 12} (k : Fin 16) (h : off.toNat = 0x200 + 4 * k.val) :
    accessReg off 4 = some (.blockIn k) := by
  rw [accessReg_of_toNat (n := 128 + k.val) (by omega), regOfWord_blockIn]

theorem accessReg_blockOut {off : BitVec 12} (k : Fin 16) (h : off.toNat = 0x240 + 4 * k.val) :
    accessReg off 4 = some (.blockOut k) := by
  rw [accessReg_of_toNat (n := 144 + k.val) (by omega), regOfWord_blockOut]

/-- No register is reached exactly where R43, R44 or R45 answers a bus error. -/
theorem accessReg_none {off : BitVec 12} {size : Nat} :
    accessReg off size = none ↔ (size ≠ 4 ∨ off.toNat % 4 ≠ 0 ∨ unmappedOffset off) := by
  unfold accessReg unmappedOffset
  split
  · rw [regOfWord_none]; omega
  · exact iff_of_true rfl (by omega)

/-- The read-only registers ignore writes (R46), busy or not. -/
theorem busWrite_readOnly {off : BitVec 12} (h4 : off.toNat % 4 = 0)
    (h : off.toNat < 0x00C ∨ (0x240 ≤ off.toNat ∧ off.toNat < 0x280)) (w : Word) (s : State) :
    busWrite off 4 w s = .next s := by
  have hcases : off = 0x000#12 ∨ off = 0x004#12 ∨ off = 0x008#12 ∨ ∃ k : Fin 16, off.toNat = 0x240 + 4 * k.val := by
    rcases h with h | ⟨hlo, hhi⟩
    · bv_omega
    · exact .inr (.inr (.inr ⟨⟨(off.toNat - 0x240) / 4, by omega⟩, by simp only; omega⟩))
  rcases hcases with rfl | rfl | rfl | ⟨k, hk⟩
  · exact busWrite_of_access accessReg_id w s
  · exact busWrite_of_access accessReg_param0 w s
  · exact busWrite_of_access accessReg_param1 w s
  · exact busWrite_of_access (accessReg_blockOut k hk) w s

/-- CMD and SECRET read 0 (R46). -/
theorem busRead_writeOnly {off : BitVec 12} (h4 : off.toNat % 4 = 0)
    (h : off = 0x014#12 ∨ (0x100 ≤ off.toNat ∧ off.toNat < 0x200)) (s : State) : busRead off 4 s = some 0#32 := by
  rcases h with rfl | ⟨hlo, hhi⟩
  · exact busRead_of_access accessReg_cmd s
  · obtain ⟨k, hk⟩ : ∃ k : Fin 64, off.toNat = 0x100 + 4 * k.val :=
      ⟨⟨(off.toNat - 0x100) / 4, by omega⟩, by simp only; omega⟩
    exact busRead_of_access (accessReg_secret k hk) s

/-- What a read answers is a function of the hardware alone. -/
theorem busRead_hw (off : BitVec 12) (size : Nat) (s : State) : busRead off size s.hw = busRead off size s := rfl

/-- A read at the head of the program faults exactly when the bus answers no word (R127). -/
theorem hostStep_read_fault {s : State} {off : BitVec 12} {size : Nat} {rest : List HostOp} :
    hostStep { s with program := .read off size :: rest } = .fault (.busError off) ↔ busRead off size s = none := by
  have hr : busRead off size { s with program := .read off size :: rest } = busRead off size s := rfl
  simp only [hostStep, runHostOp, hr]
  cases busRead off size s <;> simp

/-- A bus write answers a bus error exactly where no register is reached, and a next state everywhere else. -/
theorem busWrite_cases (off : BitVec 12) (size : Nat) (w : Word) (s : State) :
    (accessReg off size = none ∧ busWrite off size w s = .fault (.busError off)) ∨
    (accessReg off size ≠ none ∧ ∃ t, busWrite off size w s = .next t) := by
  cases ha : accessReg off size with
  | none => exact .inl ⟨rfl, by simp [busWrite, ha]⟩
  | some r => exact .inr ⟨nofun, _, (busWrite_of_access ha w s).trans (writeReg_eq r w s)⟩

theorem windowOffset_none (a : Nat) : windowOffset a = none ↔ (a < engineBase ∨ engineBase + 4096 ≤ a) := by
  unfold windowOffset
  split
  · exact iff_of_false nofun (by omega)
  · exact iff_of_true rfl (by omega)

/-- Settles O17: reads, host reads and writes answer a bus error exactly where an access reaches no register. -/
theorem busErrorsExactly : Obligations.BusErrorsExactly := by
  refine ⟨fun s off size => ?read, fun s off size rest => hostStep_read_fault, fun s off size w => ?write,
    windowOffset_none⟩
  case read => rw [busRead, Option.map_eq_none_iff, accessReg_none]
  case write =>
    rw [← accessReg_none]
    rcases busWrite_cases off size w s with ⟨ha, hf⟩ | ⟨ha, t, hn⟩
    · exact ⟨.inr hf, iff_of_true hf ha⟩
    · exact ⟨.inl ⟨t, hn⟩, iff_of_false (by rw [hn]; nofun) ha⟩

end Sys2Proof.Machine
end

section
/-! Writes while a command is in progress (R49, R128), and host steps that are no write (R50). -/

namespace Sys2Proof.Machine

/-- No engine step reads OVR. -/
theorem engineStep_with_ovr (s : State) (b : Bool) : engineStep { s with ovr := b } = { engineStep s with ovr := b } := by
  refine engineStep_commutes (fun x => { x with ovr := b }) s rfl ?derive ?enc ?dec
  case derive =>
    unfold deriveStep
    simp only
    split
    · rfl
    · split <;> rfl
  case enc =>
    unfold encStep
    simp only
    split <;> rfl
  case dec =>
    unfold decStep
    simp only
    split <;> rfl

/-- Settles O12: the busy gate of R49 drops the writes of five registers; CTRL, STATUS and the read-only registers have no such
gate, and no engine step reads OVR. -/
theorem writesWhileBusyAreDropped : Obligations.WritesWhileBusyAreDropped := by
  intro s w hb
  refine ⟨fun off hd => busWrite_dropped hd w hb, fun i => exec_busy i hb, ?ctrl, ?status,
    fun off h4 h => busWrite_readOnly h4 h w s, engineStep_with_ovr s true⟩
  case ctrl => exact busWrite_of_access accessReg_ctrl w s
  case status => exact busWrite_of_access accessReg_status w s

/-- Settles O24: a host step that is no write leaves the hardware, and what a read answers depends on the hardware alone. -/
theorem readsHaveNoSideEffect : Obligations.ReadsHaveNoSideEffect := by
  intro s t hnw ht
  have hhw : t.hw = s.hw := by
    rcases hostStep_cases ht with ⟨_, rfl⟩ | ⟨off, size, w, rest, hp, _⟩ | ⟨h, _⟩
    · rfl
    · exact absurd hp (hnw off size w rest)
    · exact h
  exact ⟨hhw, fun off size => eq_of_hw (busRead off size) hhw (busRead_hw off size)⟩

end Sys2Proof.Machine
end

section
/-! Reserved bits (R46): they read 0, and a write does not look at them. -/

namespace Sys2Proof.Machine

theorem bitWord_reserved (b : Bool) : bitWord b &&& 0xFFFFFFFE#32 = 0#32 := by cases b <;> decide

/-- Nothing is left of a word that is 0 wherever the mask is 1. -/
theorem and_eq_zero_of_mask {v m : Word} (h : ∀ j < 32, m.getLsbD j = true → v.getLsbD j = false) : v &&& m = 0#32 := by
  apply BitVec.eq_of_getLsbD_eq
  intro j hj
  rw [BitVec.getLsbD_and, BitVec.getLsbD_zero, Bool.and_eq_false_iff]
  cases hm : m.getLsbD j with
  | true => exact .inl (h j hj hm)
  | false => exact .inr rfl

/-- The upper half of a length register reads 0 (R27, R28). -/
theorem setWidth_reserved (len : BitVec 16) : len.setWidth 32 &&& 0xFFFF0000#32 = 0#32 := by
  have hmask : ∀ j < 32, (0xFFFF0000#32).getLsbD j = true → 16 ≤ j := by decide
  refine and_eq_zero_of_mask fun j hj hm => ?_
  rw [BitVec.getLsbD_setWidth, BitVec.getLsbD_of_ge _ _ (hmask j hj hm), Bool.and_false]

/-- Bits 7:4 and 31:16 of STATUS read 0 (R21). -/
theorem statusWord_reserved (s : State) : statusWord s &&& 0xFFFF00F0#32 = 0#32 := by
  have hmask : ∀ j < 32, (0xFFFF00F0#32).getLsbD j = true → (4 ≤ j ∧ j < 8) ∨ 16 ≤ j := by decide
  have hlast (j : Nat) (h : 16 ≤ j) : s.lastOp.getLsbD (j - 12) = false := BitVec.getLsbD_of_ge _ _ (by omega)
  refine and_eq_zero_of_mask fun j hj hm => ?_
  rw [getLsbD_statusWord s hj]
  rcases hmask j hj hm with ⟨hlo, hhi⟩ | hhi
  · simp [show j ≠ 0 ∧ j ≠ 1 ∧ j ≠ 2 ∧ j ≠ 3 by omega, hhi]
  · grind

/-- CTRL takes bit 0 of the word alone (R19). -/
theorem writeCtrl_mask (w : Word) (s : State) : writeCtrl (w &&& 0x00000001#32) s = writeCtrl w s := by
  simp [writeCtrl]

/-- STATUS takes bits 1 and 3 of the word alone (R42). -/
theorem writeStatus_mask (w : Word) (s : State) : writeStatus (w &&& 0x0000000A#32) s = writeStatus w s := by
  simp [writeStatus]

/-- A length register takes the lower half of the word alone (R27, R28). -/
theorem low_half_mask (w : Word) : (w &&& 0x0000FFFF#32).extractLsb' 0 16 = w.extractLsb' 0 16 := by
  have hmask : ∀ j < 16, (0x0000FFFF#32).getLsbD j = true := by decide
  apply BitVec.eq_of_getLsbD_eq
  intro j hj
  rw [BitVec.getLsbD_extractLsb', BitVec.getLsbD_extractLsb', Nat.zero_add, BitVec.getLsbD_and, hmask j hj, Bool.and_true]

/-- Settles O23: the read-only and the write-only registers by their offsets, the reserved bits register by register. -/
theorem readOnlyWriteOnlyAndReservedBits : Obligations.ReadOnlyWriteOnlyAndReservedBits := by
  refine ⟨fun s off w h4 h => busWrite_readOnly h4 h w s, fun s off h4 h => busRead_writeOnly h4 h s, fun s => ?reads,
    fun s w => ⟨?ctrl, ?status, ?secretLen, ?blockLen⟩⟩
  case reads =>
    exact ⟨_, _, _, _, busRead_of_access accessReg_ctrl s, bitWord_reserved s.ie, busRead_status s, statusWord_reserved s,
      busRead_of_access accessReg_secretLen s, setWidth_reserved s.secretLen,
      busRead_of_access accessReg_blockLen s, setWidth_reserved s.blockLen⟩
  case ctrl => simp only [busWrite_of_access accessReg_ctrl, writeReg, writeCtrl_mask]
  case status => simp only [busWrite_of_access accessReg_status, writeReg, writeStatus_mask]
  case secretLen =>
    rw [busWrite_of_access accessReg_secretLen, busWrite_of_access accessReg_secretLen, writeReg, writeReg]
    unfold storeSecretLen
    rw [low_half_mask]
  case blockLen =>
    rw [busWrite_of_access accessReg_blockLen, busWrite_of_access accessReg_blockLen, writeReg, writeReg]
    unfold storeBlockLen
    rw [low_half_mask]

end Sys2Proof.Machine
end

section
/-! The packing of the buffers on the bus (R47): byte `4k + b` is bits `8b+7 : 8b` of word `k`. -/

namespace Sys2Proof.Machine

/-- A word written into a buffer, byte by byte. -/
theorem get_patch_le32bytes {n : Nat} (b : Bytes n) (at_ : Nat) (w : Word) (h : at_ + 4 ≤ n) (i : Fin n) :
    (patchBytes b at_ (le32bytes w) h).get i =
      if at_ ≤ i.val ∧ i.val < at_ + 4 then w.extractLsb' (8 * (i.val - at_)) 8 else b.get i := by
  rw [get_patchBytes]
  split <;> simp only [get_le32bytes]

/-- A word read from a buffer, byte by byte. -/
theorem le32_slice_byte {n : Nat} (buf : Bytes n) (at_ : Nat) (h : at_ + 4 ≤ n) (b : Fin 4) :
    (le32 (sliceBytes buf at_ 4 h)).extractLsb' (8 * b.val) 8 = buf.get ⟨at_ + b.val, by omega⟩ := by
  rw [le32_byte, get_sliceBytes]

/-- The offset of word `k` of a buffer lies in the window. -/
theorem toNat_bufferOffset {base k : Nat} (h : base + 4 * k < 4096) :
    (BitVec.ofNat 12 (base + 4 * k)).toNat = base + 4 * k := by
  rw [BitVec.toNat_ofNat, Nat.mod_eq_of_lt h]

theorem busWrite_secret_idle {off : BitVec 12} (k : Fin 64) (h : off.toNat = 0x100 + 4 * k.val) (w : Word) {s : State}
    (hb : busy s = false) : busWrite off 4 w s = .next (storeSecret k w s) := by
  rw [busWrite_of_access (accessReg_secret k h), writeReg, unlessBusy_idle _ hb]

theorem busWrite_blockIn_idle {off : BitVec 12} (k : Fin 16) (h : off.toNat = 0x200 + 4 * k.val) (w : Word) {s : State}
    (hb : busy s = false) : busWrite off 4 w s = .next (storeBlockIn k w s) := by
  rw [busWrite_of_access (accessReg_blockIn k h), writeReg, unlessBusy_idle _ hb]

/-- Two words written at the start of a buffer are its first eight bytes. -/
theorem take_patch_two_words {n : Nat} (b : Bytes n) (w0 w1 : Word) (h0 : 0 + 4 ≤ n) (h1 : 4 + 4 ≤ n) :
    (patchBytes (patchBytes b 0 (le32bytes w0) h0) 4 (le32bytes w1) h1).data.take 8 =
      (le32bytes w0).data ++ (le32bytes w1).data := by
  simp [patchBytes, le32bytes]

/-- Settles O22: an access of a buffer word is the little-endian patch or slice of four bytes. -/
theorem bufferPackingIsLittleEndian : Obligations.BufferPackingIsLittleEndian := by
  refine ⟨fun s k w hb => ?secret, fun s k w hb => ?blockIn, fun s k => ?readIn, fun s k => ?readOut,
    fun s t u hb ht hu => ?twoWords⟩
  case secret =>
    exact ⟨_, busWrite_secret_idle k (toNat_bufferOffset (by omega)) w hb, rfl,
      get_patch_le32bytes s.secret _ w (secret_word_fits k)⟩
  case blockIn =>
    exact ⟨_, busWrite_blockIn_idle k (toNat_bufferOffset (by omega)) w hb, rfl,
      get_patch_le32bytes s.blockIn _ w (block_word_fits k)⟩
  case readIn =>
    exact ⟨_, busRead_of_access (accessReg_blockIn k (toNat_bufferOffset (by omega))) s,
      le32_slice_byte s.blockIn _ (block_word_fits k)⟩
  case readOut =>
    exact ⟨_, busRead_of_access (accessReg_blockOut k (toNat_bufferOffset (by omega))) s,
      le32_slice_byte s.blockOut _ (block_word_fits k)⟩
  case twoWords =>
    rw [busWrite_secret_idle 0 rfl _ hb] at ht
    cases ht
    rw [busWrite_secret_idle (s := storeSecret 0 0x74736574#32 s) 1 rfl _ hb] at hu
    cases hu
    exact take_patch_two_words s.secret _ _ (by decide) (by decide)

end Sys2Proof.Machine
end

section
/-! The inputs of a command in progress (R49, R115, R154). -/

namespace Sys2Proof.Machine

/-- An engine step writes no input but the secret at the completion of a DERIVE and KM during a DERIVE. -/
theorem engineStep_inputs (s : State) :
    (engineStep s).blockIn = s.blockIn ∧ (engineStep s).blockLen = s.blockLen ∧
      (¬(stepsLeft s = 1 ∧ s.phase = .derive) →
        (engineStep s).secret = s.secret ∧ (engineStep s).secretLen = s.secretLen) ∧
      (s.phase ≠ .derive → (engineStep s).km = s.km) := by
  cases engine_outcome s with
  | deriveIter hp _ _ e | deriveBlock hp _ _ _ e => rw [e]; exact ⟨rfl, rfl, fun _ => ⟨rfl, rfl⟩, fun h => absurd hp h⟩
  | deriveDone hp hl _ _ e => rw [e]; exact ⟨rfl, rfl, fun h => absurd ⟨hl, hp⟩ h, fun h => absurd hp h⟩
  | idle _ e | encRound _ _ _ e | encDone _ _ _ e | decRound _ _ _ e | decDone _ _ _ e =>
    rw [e]; exact ⟨rfl, rfl, fun _ => ⟨rfl, rfl⟩, fun _ => rfl⟩

/-- Settles O32: while busy a step that is no reset is the engine's, a write of CTRL or STATUS, a dropped write or no change
at all; every effect that writes an input needs an idle engine. -/
theorem inputsAreFrozenWhileBusy : Obligations.InputsAreFrozenWhileBusy := by
  intro s t hb hnr ht
  obtain ⟨u, he, hu⟩ := step_effect ht
  have hin : t.blockIn = u.blockIn := eq_of_hw State.blockIn hu fun _ => rfl
  have hbl : t.blockLen = u.blockLen := eq_of_hw State.blockLen hu fun _ => rfl
  have hse : t.secret = u.secret := eq_of_hw State.secret hu fun _ => rfl
  have hsl : t.secretLen = u.secretLen := eq_of_hw State.secretLen hu fun _ => rfl
  have hkm : t.km = u.km := eq_of_hw State.km hu fun _ => rfl
  rw [hin, hbl, hse, hsl, hkm]
  cases he with
  | engine hc =>
    obtain ⟨h1, h2, h3, h4⟩ := engineStep_inputs s
    exact ⟨h1, h2, fun h => h3 fun ⟨hl, hp⟩ => h ⟨⟨hc, hl⟩, hp⟩, h4⟩
  | reset hc => exact absurd hc hnr
  | unchanged _ | ctrl _ _ | status _ _ | dropped _ _ _ _ _ => exact ⟨rfl, rfl, fun _ => ⟨rfl, rfl⟩, fun _ => rfl⟩
  | accepted _ _ _ _ hi | illegal _ _ _ _ hi | secretLen _ _ hi | blockLen _ _ hi | secret _ _ _ _ hi
  | blockIn _ _ _ _ hi => rw [hb] at hi; cases hi

end Sys2Proof.Machine
end

section
/-! Which words are commands (R60 to R62): the decoder's answer by the word's two fields. -/

namespace Sys2Proof.Machine

theorem ofOpcode_eq_none {op : BitVec 4} : ofOpcode op = none ↔ 5 ≤ op.toNat := by
  revert op
  decide

/-- Everything the decoder can answer, by the fields of the word. -/
theorem decode_cases (w : Word) :
    (rsvdField w = 0#28 ∧ (opField w).toNat ≤ 4 ∧ ∃ i, decode w = .ok i) ∨
    (rsvdField w = 0#28 ∧ 5 ≤ (opField w).toNat ∧ decode w = .error .opcode) ∨
    (rsvdField w ≠ 0#28 ∧ decode w = .error .reservedBits) := by
  by_cases hr : rsvdField w = 0#28
  · cases ho : ofOpcode (opField w) with
    | none => exact .inr (.inl ⟨hr, ofOpcode_eq_none.1 ho, by simp [decode, hr, ho]⟩)
    | some i =>
      have hop : ¬5 ≤ (opField w).toNat := fun h => by simp [ofOpcode_eq_none.2 h] at ho
      exact .inl ⟨hr, by omega, i, by simp [decode, hr, ho]⟩
  · exact .inr (.inr ⟨hr, by simp [decode, hr]⟩)

theorem decode_eq_ok_iff {w : Word} {i : Instr} : decode w = .ok i ↔ w = encode i :=
  ⟨eq_encode_of_decode, fun h => h ▸ decode_encode i⟩

/-- Legality is R60's two conditions on the fields. -/
theorem exists_decode_eq_ok_iff (w : Word) :
    (∃ i, decode w = .ok i) ↔ rsvdField w = 0#28 ∧ (opField w).toNat ≤ 4 := by
  rcases decode_cases w with ⟨hr, hop, hd⟩ | ⟨_, hop, hd⟩ | ⟨hr, hd⟩
  · exact iff_of_true hd ⟨hr, hop⟩
  · exact iff_of_false (by simp [hd]) (by omega)
  · exact iff_of_false (by simp [hd]) fun h => hr h.1

/-- Illegality is R62's two classes of words. -/
theorem exists_decode_eq_error_iff (w : Word) :
    (∃ e, decode w = .error e) ↔ (rsvdField w = 0#28 ∧ 5 ≤ (opField w).toNat) ∨ rsvdField w ≠ 0#28 := by
  rcases decode_cases w with ⟨hr, hop, i, hd⟩ | ⟨hr, hop, hd⟩ | ⟨hr, hd⟩
  · exact iff_of_false (by simp [hd]) fun h => h.elim (fun h => by omega) (· hr)
  · exact iff_of_true ⟨_, hd⟩ (.inl ⟨hr, hop⟩)
  · exact iff_of_true ⟨_, hd⟩ (.inr hr)

/-- A word is no command's word exactly when the decoder rejects it. -/
theorem forall_ne_encode_iff (w : Word) : (∀ i, w ≠ encode i) ↔ ∃ e, decode w = .error e := by
  cases hd : decode w with
  | ok i => exact iff_of_false (fun h => h i (eq_encode_of_decode hd)) nofun
  | error e => exact iff_of_true (fun i h => by simp [decode_eq_ok_iff.2 h] at hd) ⟨e, rfl⟩

/-- Settles O1: the decoder's cases are the two conditions, `encode` is its inverse, and `Except` has no third answer. -/
theorem commandWordsDecodeUniquely : Obligations.CommandWordsDecodeUniquely := by
  refine ⟨exists_decode_eq_ok_iff, fun w i => decode_eq_ok_iff, fun w => ?total⟩
  case total =>
    cases decode w with
    | ok i => exact .inl ⟨i, rfl⟩
    | error e => exact .inr ⟨e, rfl⟩

/-- Settles O2: eight closed words, evaluated. -/
theorem tableWordsDecode : Obligations.TableWordsDecode := by
  unfold Obligations.TableWordsDecode
  decide

end Sys2Proof.Machine
end

section
/-! An illegal word written to CMD (R62, R126, R130). -/

namespace Sys2Proof.Machine

/-- An illegal word written to CMD is issued as IllegalCommand (R62, R129). -/
theorem busWrite_cmd_of_illegal {w : Word} {e : Illegal} (h : decode w = .error e) (s : State) :
    busWrite 0x014#12 4 w s = issueIllegal s := by
  rw [busWrite_of_access accessReg_cmd, writeReg, issueWord, h]

theorem issueIllegal_idle {s : State} (h : busy s = false) :
    issueIllegal s = .next (complete .illegalCommand { s with lastOp := 0xF#4 }) := by
  rw [issueIllegal, issueCommand, unlessBusy_idle _ h]

/-- A completion within the CMD write changes the status alone: the engine is idle, so the elements that `complete` clears
are clear already (R37). -/
theorem complete_of_idle {s : State} (hi : SeqInv s) (hb : busy s = false) (c : Code) (op : BitVec 4) :
    complete c { s with lastOp := op } = { s with err := codeBits c, done := true, lastOp := op } := by
  have hp := busy_eq_false.1 hb
  obtain ⟨hK0, hBlk, hIter, hU, hT⟩ := hi.ksClear (by simp [hp])
  obtain ⟨hW, hRnd⟩ := hi.ciClear (by simp [hp]) (by simp [hp])
  simp only [complete, hp, hK0, hBlk, hIter, hU, hT, hW, hRnd]

/-- Settles O3: the illegal words are those the decoder rejects, and in an idle state their completion changes the status
alone. -/
theorem illegalWordCompletesWithIllegalCommand : Obligations.IllegalWordCompletesWithIllegalCommand := by
  refine ⟨fun w => (forall_ne_encode_iff w).trans (exists_decode_eq_error_iff w), fun s w hi hb hw => ?_⟩
  obtain ⟨e, hd⟩ := (exists_decode_eq_error_iff w).2 hw
  rw [busWrite_cmd_of_illegal hd, issueIllegal_idle hb, complete_of_idle hi hb, codeBits]

end Sys2Proof.Machine
end

section
/-! The host's reading instructions (R67, R158): where the bus answers a word, what each does with it. -/

namespace Sys2Proof.Machine

/-- What a read answers does not depend on the host's program. -/
theorem busRead_with_program (off : BitVec 12) (size : Nat) (s : State) (p : List HostOp) :
    busRead off size { s with program := p } = busRead off size s := rfl

theorem hostStep_read {s : State} {off : BitVec 12} {size : Nat} {x : Word} (h : busRead off size s = some x)
    (rest : List HostOp) :
    hostStep { s with program := .read off size :: rest } = .next (observe x { s with program := rest }) := by
  simp only [hostStep, runHostOp, busRead_with_program, h]

theorem hostStep_check {s : State} {off : BitVec 12} {x : Word} (h : busRead off 4 s = some x)
    (v : Word) (rest : List HostOp) :
    hostStep { s with program := .check off v :: rest } =
      if x = v then .next (observe x { s with program := rest }) else .fault (.checkFailed off) := by
  simp only [hostStep, runHostOp, busRead_with_program, h]

/-- A POLL leaves the program at itself until its condition holds. -/
theorem hostStep_poll {s : State} {off : BitVec 12} {x : Word} (h : busRead off 4 s = some x)
    (mask v : Word) (rest : List HostOp) :
    hostStep { s with program := .poll off mask v :: rest } =
      .next (observe x { s with program := if x &&& mask = v then rest else .poll off mask v :: rest }) := by
  simp only [hostStep, runHostOp, busRead_with_program, h]
  split <;> rfl

/-- Settles O16: each of the three instructions hands the word the bus answers to the observation, a failed check alone
excepted. -/
theorem hostReadsObserveAndPollRepeats : Obligations.HostReadsObserveAndPollRepeats :=
  fun _ _ _ rest h =>
    ⟨hostStep_read h rest, fun v => hostStep_check h v rest, fun mask v => hostStep_poll h mask v rest⟩

end Sys2Proof.Machine
end

section
/-! The acceptance of a DERIVE by an idle engine (R89, R90). -/

namespace Sys2Proof.Machine

open Config

/-- A DERIVE that passes its check (R90). -/
theorem exec_derive_starts {s : State} (hb : busy s = false) (hl : s.secretLen.toNat ≤ SECRET_MAX) :
    exec .derive s = .next
      { startLong .derive { s with lastOp := 0x1#4 } with
        keyValid := false, ksK0 := hkey (secretOperand s), ksBlk := 1, ksIter := 1,
        ksU := Bytes.zeros HLEN, ksT := Bytes.zeros HLEN } := by
  rw [exec_idle .derive hb]
  rcases acceptDerive_cases { s with lastOp := opcodeOf .derive } with ⟨hgt, _⟩ | ⟨_, e⟩
  · exact absurd hl (Nat.not_le_of_lt hgt)
  · exact congrArg Host.Outcome.next e

/-- A DERIVE that fails its check (R89). -/
theorem exec_derive_rejects {s : State} (hb : busy s = false) (hl : SECRET_MAX < s.secretLen.toNat) :
    exec .derive s = .next (complete .invalidSecret { s with lastOp := 0x1#4 }) := by
  rw [exec_idle .derive hb]
  rcases acceptDerive_cases { s with lastOp := opcodeOf .derive } with ⟨_, e⟩ | ⟨hle, _⟩
  · exact congrArg Host.Outcome.next e
  · exact absurd hl (Nat.not_lt_of_le hle)

/-- Settles O6: the two arms of the acceptance; the rejection's completion changes the status alone. -/
theorem deriveStartsOrRejects : Obligations.DeriveStartsOrRejects := by
  refine fun s hi hb => ⟨fun hl => exec_derive_starts hb hl, fun hl => ?_⟩
  rw [exec_derive_rejects hb hl, complete_of_idle hi hb, codeBits]

end Sys2Proof.Machine
end

section
/-! What an engine step leaves unchanged (R64, R92, R111 to R114), and what may write KM (R95). -/

namespace Sys2Proof.Machine

open Config

/-- No engine step writes CTRL.IE, LAST_OP or what the host has read. -/
theorem engineStep_ie_lastOp_obs (s : State) :
    (engineStep s).ie = s.ie ∧ (engineStep s).lastOp = s.lastOp ∧ (engineStep s).obs = s.obs := by
  cases engine_outcome s with
  | idle _ e | deriveIter _ _ _ e | deriveBlock _ _ _ _ e | deriveDone _ _ _ _ e | encRound _ _ _ e | encDone _ _ _ e
  | decRound _ _ _ e | decDone _ _ _ e => rw [e]; exact ⟨rfl, rfl, rfl⟩

/-- BLOCK_OUT is written by the completion of an ENCRYPT or DECRYPT alone. -/
theorem engineStep_blockOut {s : State} (h : s.phase = .derive ∨ stepsLeft s ≠ 1) :
    (engineStep s).blockOut = s.blockOut := by
  cases engine_outcome s with
  | encDone hp hl _ _ | decDone hp hl _ _ => simp [hp, hl] at h
  | idle _ e | deriveIter _ _ _ e | deriveBlock _ _ _ _ e | deriveDone _ _ _ _ e | encRound _ _ _ e | decRound _ _ _ e =>
    exact (congrArg State.blockOut e :)

/-- Outside DERIVE an engine step leaves KM, KEY_VALID and the secret. -/
theorem engineStep_keys {s : State} (h : s.phase ≠ .derive) :
    (engineStep s).km = s.km ∧ (engineStep s).keyValid = s.keyValid ∧ (engineStep s).secret = s.secret ∧
      (engineStep s).secretLen = s.secretLen := by
  obtain ⟨_, _, hsecret, hkm⟩ := engineStep_inputs s
  obtain ⟨hs, hl⟩ := hsecret fun g => h g.2
  rcases engineStep_keyValid s with ⟨_, hp, _⟩ | ⟨_, hk⟩
  · exact absurd hp h
  · exact ⟨hkm h, hk, hs, hl⟩

/-- Settles O33: the frame of every engine step, of one outside DERIVE, and of one that is not a command's last. -/
theorem engineStepFrame : Obligations.EngineStepFrame := by
  intro s
  obtain ⟨hie, hop, hobs⟩ := engineStep_ie_lastOp_obs s
  obtain ⟨hprog, _, _, _⟩ := engineStep_agents s
  obtain ⟨hbi, hbl, _, _⟩ := engineStep_inputs s
  refine ⟨hie, engineStep_ovr s, hop, hbi, hbl, hprog, hobs, engineStep_keys, fun h => ?blockOut, fun _ h => ?continues⟩
  case blockOut => exact engineStep_blockOut (h.imp_right fun hl => by omega)
  case continues =>
    obtain ⟨hd, _, he, hk, hs, hl, _⟩ := engineStep_continues (s := s) (by omega)
    exact ⟨he, hd, hk, hs, hl⟩

/-- What a step can do to KM. -/
theorem effect_km {s u : State} (he : Effect s u) :
    u.km = s.km ∨ (chooseTurn s).1 = .reset ∨ acceptsNext s .zeroize ∨
      ((chooseTurn s).1 = .engine ∧ s.phase = .derive) := by
  cases he with
  | engine hc =>
    by_cases hp : s.phase = .derive
    · exact .inr (.inr (.inr ⟨hc, hp⟩))
    · exact .inl (engineStep_keys hp).1
  | reset hc => exact .inr (.inl hc)
  | accepted i w hn hd hb =>
    cases accept_outcome i { s with lastOp := opcodeOf i } with
    | completes _ _ e | derives _ _ e | ciphers _ _ _ _ _ _ e => exact .inl (congrArg State.km e :)
    | zeroizes h _ => exact .inr (.inr (.inl (h ▸ acceptsNext_of_decode hn hd hb)))
  | unchanged _ | ctrl _ _ | status _ _ | dropped _ _ _ _ _ | illegal _ _ _ _ _ | secretLen _ _ _ | blockLen _ _ _
  | secret _ _ _ _ _ | blockIn _ _ _ _ _ => exact .inl rfl

/-- Settles O29: of all effects reset, ZEROIZE and a DERIVE step alone write KM, and during a DERIVE KEY_VALID is 0. -/
theorem keyMaterialIsWrittenByDeriveZeroizeResetOnly : Obligations.KeyMaterialIsWrittenByDeriveZeroizeResetOnly := by
  intro s t ht hne
  obtain ⟨u, he, hu⟩ := step_effect ht
  rw [eq_of_hw State.km hu fun _ => rfl] at hne
  have hcause := (effect_km he).resolve_left hne
  refine ⟨hcause, fun hi hk => ?_⟩
  rcases hcause with hc | hz | ⟨_, hp⟩
  · exact .inl hc
  · exact .inr hz
  · exact absurd (hk.symm.trans (hi.deriving_ hp).2) (by decide)

end Sys2Proof.Machine
end

section
/-! SHA-256's padding (R72), HMAC from the two midstates (R83) and its key preparation (R80). -/

namespace Sys2Proof.Machine

open Config

@[simp] theorem length_be64 (x : BitVec 64) : (be64 x).length = 8 := rfl

theorem length_padMessage (m : List Byte) : (padMessage m).length = m.length + 1 + padZeros m.length + 8 := by
  simp only [padMessage, List.length_append, List.length_cons, List.length_replicate, length_be64]
  omega

/-- Settles O47: `padZeros` is the least number of zeros, and the length follows from it. -/
theorem paddingFillsWholeBlocks : Obligations.PaddingFillsWholeBlocks := by
  intro m
  rw [length_padMessage]
  unfold padZeros
  refine ⟨⟨padZeros m.length, ?form, ?whole, ?least⟩, by omega, by omega, by omega⟩
  case form => simp [padMessage]
  case whole => unfold padZeros; omega
  case least => unfold padZeros; omega

/-- Behind a whole first block a message of at most 55 bytes needs one more block, its length counted from the first. -/
theorem padMessage_block_append {b m : List Byte} (hb : b.length = 64) (hm : m.length ≤ 55) :
    padMessage (b ++ m) =
      b ++ (m ++ [0x80#8] ++ List.replicate (55 - m.length) 0#8 ++ be64 (BitVec.ofNat 64 (8 * (64 + m.length)))) := by
  have hz : padZeros (64 + m.length) = 55 - m.length := by unfold padZeros; omega
  simp only [padMessage, List.length_append, hb, hz, List.append_assoc, List.cons_append, List.nil_append]

/-- The hash of a whole block and at most 55 bytes: one compression from the state after that block. -/
theorem sha256_block_append {b m : List Byte} (hb : b.length = 64) (hm : m.length ≤ 55) :
    sha256 (b ++ m) =
      digestBytes (compress (compress initialHash b)
        (m ++ [0x80#8] ++ List.replicate (55 - m.length) 0#8 ++ be64 (BitVec.ofNat 64 (8 * (64 + m.length))))) := by
  have hpad := padMessage_block_append hb hm
  generalize hrest : m ++ [0x80#8] ++ List.replicate (55 - m.length) 0#8 ++ be64 (BitVec.ofNat 64 (8 * (64 + m.length))) =
    rest at hpad
  have hr : rest.length = 64 := by
    rw [← hrest]
    simp only [List.length_append, List.length_cons, List.length_nil, List.length_replicate, length_be64]
    omega
  have h2 : (b ++ rest).length / 64 = 2 := by rw [List.length_append, hb, hr]
  simp only [sha256, hpad, h2, compressBlocks, List.take_left' hb, List.drop_left' hb, List.take_of_length_le hr.le]

/-- Settles O49: the inner and the outer hash each have one block made of the key alone, and one more block. -/
theorem hmacFromMidstates : Obligations.HmacFromMidstates := by
  intro k0 m hm
  rw [hmacK0, sha256_block_append (bytes_length _) hm, sha256_block_append (bytes_length _) (by rw [bytes_length]; omega),
    bytes_length]

theorem hkey_short {k : List Byte} (h : k.length ≤ BLOCK) : (hkey k).data = k ++ List.replicate (BLOCK - k.length) 0#8 := by
  rw [hkey, dif_pos h]

theorem hkey_long {k : List Byte} (h : BLOCK < k.length) : hkey k = appendBytes (sha256 k) (Bytes.zeros 32) := by
  rw [hkey, dif_neg (Nat.not_le_of_lt h)]

theorem hkey_nil : hkey [] = Bytes.zeros BLOCK := bytes_ext (hkey_short (Nat.zero_le _))

/-- Zeros at the end of a key make no difference while the key fits the block. -/
theorem hkey_append_zeros {k : List Byte} {z : Nat} (h : k.length + z ≤ BLOCK) :
    hkey (k ++ List.replicate z 0#8) = hkey k := by
  have hlen : (k ++ List.replicate z 0#8).length = k.length + z := by simp
  apply bytes_ext
  rw [hkey_short (hlen ▸ h), hkey_short (by omega), hlen, List.append_assoc, List.replicate_append_replicate]
  congr 2
  omega

/-- Settles O50: the two arms of the key preparation, and zero padding. -/
theorem keyPreparation : Obligations.KeyPreparation :=
  ⟨fun _ h => hkey_short h, fun _ h => congrArg Bytes.data (hkey_long h), hkey_nil, fun _ _ h => hkey_append_zeros h⟩

end Sys2Proof.Machine
end

section
/-! The key material as fourteen PBKDF2 blocks of 32 bytes (R85). -/

namespace Sys2Proof.Machine

open Config

/-- Block `i` of the key material lies within it. -/
theorem keyBlock_fits {i : Nat} (h : i < KS_BLOCKS) : 32 * i + HLEN ≤ DKLEN := by
  simp only [KS_BLOCKS, DKLEN, ROUNDS, HALF, HLEN] at *
  omega

/-- A whole number of blocks is not cut. -/
theorem pbkdf2_data (p salt : List Byte) (c l : Nat) : (pbkdf2 p salt c (32 * l)).data = pbkdf2Blocks p salt c l := by
  have hl : (32 * l + 31) / 32 = l := by omega
  simp only [pbkdf2, hl]
  exact List.take_of_length_le (length_pbkdf2Blocks p salt c l).le

/-- The key material is fourteen blocks. -/
theorem deriveKey_data (secret : List Byte) : (deriveKey secret).data = pbkdf2Blocks secret SALT ITER 14 :=
  pbkdf2_data secret SALT ITER 14

/-- `T_(i+1)` is the block at `32 * i` (R85). -/
theorem deriveKey_slice (secret : List Byte) {i : Nat} (h : i < KS_BLOCKS) :
    sliceBytes (deriveKey secret) (32 * i) HLEN (keyBlock_fits h) = pbkdf2Block secret SALT ITER (i + 1) :=
  bytes_ext (by simpa only [sliceBytes, deriveKey_data] using pbkdf2Blocks_slice secret SALT ITER 14 i h)

/-- A slice is its front and its back. -/
theorem sliceBytes_add {n : Nat} (b : Bytes n) (at_ j k : Nat) (h : at_ + (j + k) ≤ n) :
    sliceBytes b at_ (j + k) h =
      appendBytes (sliceBytes b at_ j (by omega)) (sliceBytes b (at_ + j) k (by omega)) :=
  bytes_ext (by simp only [sliceBytes, appendBytes, List.take_add, List.drop_drop])

/-- Two key materials with the same fourteen blocks are the same. -/
theorem km_ext {a b : Bytes DKLEN}
    (h : ∀ (i : Nat) (hi : i < KS_BLOCKS),
      sliceBytes a (32 * i) HLEN (keyBlock_fits hi) = sliceBytes b (32 * i) HLEN (keyBlock_fits hi)) : a = b := by
  have hall : ∀ x : Bytes DKLEN, x.data = ((List.range KS_BLOCKS).map fun i => (x.data.drop (32 * i)).take 32).flatten :=
    fun x => (flatten_chunks x.data 32 KS_BLOCKS ▸ List.take_of_length_le (by rw [x.len]; decide)).symm
  apply bytes_ext
  rw [hall a, hall b]
  congr 1
  exact List.map_congr_left fun i hi => congrArg Bytes.data (h i (List.mem_range.1 hi))

/-- Settles O51: each block is a slice of the key material; a round key is one of them, prekey and postkey are two each. -/
theorem keyMaterialIsFourteenBlocks : Obligations.KeyMaterialIsFourteenBlocks := by
  intro secret
  have hblock : ∀ {i : Nat} (h : i < KS_BLOCKS), sliceBytes (deriveKey secret) (32 * i) HLEN (keyBlock_fits h) =
      pbkdf2Block secret SALT ITER (i + 1) := deriveKey_slice secret
  refine ⟨fun i => hblock i.isLt, ?prekey, fun r => ?roundKey, ?postkey, by decide, by decide⟩
  case prekey =>
    exact (sliceBytes_add (deriveKey secret) 0 HLEN HLEN (by decide)).trans
      (congrArg₂ appendBytes (hblock (i := 0) (by decide)) (hblock (i := 1) (by decide)))
  case roundKey =>
    have h := hblock (i := r.val + 2) (show r.val + 2 < 14 by omega)
    have hat : BLOCK + HALF * r.val = 32 * (r.val + 2) := by simp only [BLOCK, HALF]; omega
    simpa only [roundKey, hat] using h
  case postkey =>
    exact (sliceBytes_add (deriveKey secret) 384 HLEN HLEN (by decide)).trans
      (congrArg₂ appendBytes (hblock (i := 12) (by decide)) (hblock (i := 13) (by decide)))

end Sys2Proof.Machine
end

section
/-! The progress invariant over every step (R92, R94, R111, R113, R115): it speaks of the hardware alone and of a command in
progress alone; each start establishes it, each engine step that does not complete keeps it. -/

namespace Sys2Proof.Machine

open Config

theorem progressInv_hw {s : State} : ProgressInv s.hw ↔ ProgressInv s :=
  ⟨fun h => ⟨h.keyBlock, h.blocks, h.iterations, h.encrypting, h.decrypting⟩,
    fun h => ⟨h.keyBlock, h.blocks, h.iterations, h.encrypting, h.decrypting⟩⟩

/-- Nothing is claimed while no command is in progress. -/
theorem progressInv_idle {s : State} (h : s.phase = .idle) : ProgressInv s where
  keyBlock g := by simp [h] at g
  blocks g := by simp [h] at g
  iterations g := by simp [h] at g
  encrypting g := by simp [h] at g
  decrypting g := by simp [h] at g

/-- IE, DONE and OVR, all that a host write touches while a command is in progress, are no element the invariant speaks of. -/
theorem progressInv_flags {s : State} (h : ProgressInv s) (ie done ovr : Bool) :
    ProgressInv { s with ie := ie, done := done, ovr := ovr } :=
  ⟨h.keyBlock, h.blocks, h.iterations, h.encrypting, h.decrypting⟩

/-- The start of a DERIVE: the key block is there, no block and no iteration is (R90). -/
theorem progressInv_startDerive (s : State) :
    ProgressInv
      { startLong .derive s with
        keyValid := false, ksK0 := hkey (secretOperand s), ksBlk := 1, ksIter := 1,
        ksU := Bytes.zeros HLEN, ksT := Bytes.zeros HLEN } where
  keyBlock _ := rfl
  blocks _ i h := absurd h (by show ¬ i + 1 < 1; omega)
  iterations _ h := absurd h (by show ¬ 2 ≤ 1; decide)
  encrypting := nofun
  decrypting := nofun

/-- The start of an ENCRYPT: the block is whitened, no round is done (R108). -/
theorem progressInv_startEncrypt (s : State) :
    ProgressInv { startLong .enc s with ciW := xorBytes s.blockIn (prekey s.km), ciRnd := 0 } where
  keyBlock := nofun
  blocks := nofun
  iterations := nofun
  encrypting _ := rfl
  decrypting := nofun

/-- The start of a DECRYPT: the block is whitened, no round is done (R109). -/
theorem progressInv_startDecrypt (s : State) :
    ProgressInv { startLong .dec s with ciW := xorBytes s.blockIn (postkey s.km), ciRnd := 9 } where
  keyBlock := nofun
  blocks := nofun
  iterations := nofun
  encrypting := nofun
  decrypting _ := rfl

/-- An acceptance completes at once or starts a command, whatever the state. -/
theorem progressInv_acceptArm (i : Instr) (s : State) : ProgressInv (acceptArm i s) := by
  cases i with
  | nop => exact progressInv_idle rfl
  | zeroize => exact progressInv_idle rfl
  | derive =>
    rcases acceptDerive_cases s with ⟨_, e⟩ | ⟨_, e⟩ <;> rw [acceptArm, e]
    · exact progressInv_idle rfl
    · exact progressInv_startDerive s
  | encrypt =>
    rcases acceptEncrypt_cases s with ⟨_, e⟩ | ⟨_, _, e⟩ | ⟨_, _, e⟩ <;> rw [acceptArm, e]
    · exact progressInv_idle rfl
    · exact progressInv_idle rfl
    · exact progressInv_startEncrypt s
  | decrypt =>
    rcases acceptDecrypt_cases s with ⟨_, e⟩ | ⟨_, _, e⟩ | ⟨_, _, e⟩ <;> rw [acceptArm, e]
    · exact progressInv_idle rfl
    · exact progressInv_idle rfl
    · exact progressInv_startDecrypt s

/-- A DERIVE step in iteration `j` computes `U_j` and `U_1 ^ ... ^ U_j` of its block (R92, R94). -/
theorem deriveU_deriveT {s : State} (hi : SeqInv s) (hpi : ProgressInv s) (hp : s.phase = .derive) :
    (deriveU s, deriveT s) = prfPair (secretOperand s) SALT s.ksBlk.val (s.ksIter.val - 1) := by
  have hK0 := hpi.keyBlock hp
  obtain ⟨_, hj⟩ := hi.counters hp
  by_cases h1 : s.ksIter.val = 1
  · simp only [deriveT, deriveU, h1, if_true, hK0, Nat.sub_self, prfPair, prfFirst, hmac]
  · have hprev := hpi.iterations hp (by omega)
    have hsub : s.ksIter.val - 1 = s.ksIter.val - 2 + 1 := by omega
    rw [hsub, prfPair, ← hprev]
    simp only [deriveT, deriveU, h1, if_false, hK0, hmac]

/-- The last iteration of block `i` leaves `T_1` to `T_i` in KM (R92, R94). -/
theorem deriveKm_slice {s : State} (hi : SeqInv s) (hpi : ProgressInv s) (hp : s.phase = .derive) (hj : s.ksIter.val = ITER)
    {i : Nat} (h : i < s.ksBlk.val) (hfit : 32 * i + HLEN ≤ DKLEN) :
    sliceBytes (deriveKm s) (32 * i) HLEN hfit = pbkdf2Block (secretOperand s) SALT ITER (i + 1) := by
  by_cases hlast : i + 1 = s.ksBlk.val
  · obtain rfl : i = s.ksBlk.val - 1 := by omega
    have hT := congrArg Prod.snd (deriveU_deriveT hi hpi hp)
    rw [hj] at hT
    rw [deriveKm, sliceBytes_patch_same, hlast, pbkdf2Block]
    exact hT
  · rw [deriveKm, sliceBytes_patch_other (hd := .inl (by simp only [HLEN]; omega))]
    exact hpi.blocks hp i (by omega)

/-- An iteration of DERIVE that is not the block's last (R92). -/
theorem progressInv_deriveIter {s : State} (hi : SeqInv s) (hpi : ProgressInv s) (hp : s.phase = .derive)
    (h : s.ksIter.val < ITER) :
    ProgressInv { s with ksU := deriveU s, ksT := deriveT s, ksIter := ⟨s.ksIter.val + 1, Nat.succ_lt_succ h⟩ } where
  keyBlock := hpi.keyBlock
  blocks := hpi.blocks
  iterations _ _ := deriveU_deriveT hi hpi hp
  encrypting := hpi.encrypting
  decrypting := hpi.decrypting

/-- The last iteration of a block of DERIVE that is not the last (R92). -/
theorem progressInv_deriveBlock {s : State} (hi : SeqInv s) (hpi : ProgressInv s) (hp : s.phase = .derive)
    (hj : s.ksIter.val = ITER) (hb : s.ksBlk.val < KS_BLOCKS) :
    ProgressInv
      { s with
        km := deriveKm s, ksBlk := ⟨s.ksBlk.val + 1, Nat.succ_lt_succ hb⟩, ksIter := 1,
        ksU := Bytes.zeros HLEN, ksT := Bytes.zeros HLEN } where
  keyBlock := hpi.keyBlock
  blocks _ _ h := deriveKm_slice hi hpi hp hj (Nat.lt_of_succ_lt_succ h) _
  iterations _ h := absurd h (by show ¬ 2 ≤ 1; decide)
  encrypting g := by simp [hp] at g
  decrypting g := by simp [hp] at g

/-- One more element of a list folded in. -/
theorem foldl_take_succ {α β : Type} (f : β → α → β) (b : β) (l : List α) {n : Nat} (h : n < l.length) :
    (l.take (n + 1)).foldl f b = f ((l.take n).foldl f b) l[n] := by
  rw [List.take_succ_eq_append_getElem h, List.foldl_append, List.foldl_cons, List.foldl_nil]

theorem descending_index_lt (km : Bytes DKLEN) (r : Fin ROUNDS) :
    ROUNDS - 1 - r.val < (roundKeys km).reverse.length := by
  rw [List.length_reverse, length_roundKeys]
  exact Nat.lt_of_le_of_lt (Nat.sub_le _ _) (by decide)

/-- The round keys in descending order (R106). -/
theorem getElem_roundKeys_reverse (km : Bytes DKLEN) (r : Fin ROUNDS) :
    (roundKeys km).reverse[ROUNDS - 1 - r.val]'(descending_index_lt km r) = roundKey km r := by
  rw [List.getElem_reverse, ← getElem_roundKeys]
  congr 1
  rw [length_roundKeys]
  exact Nat.sub_sub_self (Nat.le_pred_of_lt r.isLt)

/-- A round of ENCRYPT that is not the last (R111). -/
theorem progressInv_encRound {s : State} (hpi : ProgressInv s) (hp : s.phase = .enc) (h : s.ciRnd.val < ROUNDS - 1) :
    ProgressInv { s with ciW := stepRound s, ciRnd := ⟨s.ciRnd.val + 1, Nat.add_lt_of_lt_sub h⟩ } where
  keyBlock := hpi.keyBlock
  blocks := hpi.blocks
  iterations := hpi.iterations
  encrypting _ := by
    show cipherRound s.ciW (roundKey s.km s.ciRnd) = _
    rw [foldl_take_succ cipherRound _ (roundKeys s.km) (by simp), getElem_roundKeys, hpi.encrypting hp]
  decrypting g := by simp [hp] at g

/-- A round of DECRYPT that is not the last (R113). -/
theorem progressInv_decRound {s : State} (hpi : ProgressInv s) (hp : s.phase = .dec) (h : 0 < s.ciRnd.val)
    (hlt : s.ciRnd.val - 1 < ROUNDS) : ProgressInv { s with ciW := stepRound s, ciRnd := ⟨s.ciRnd.val - 1, hlt⟩ } where
  keyBlock := hpi.keyBlock
  blocks := hpi.blocks
  iterations := hpi.iterations
  encrypting g := by simp [hp] at g
  decrypting _ := by
    have hdone : ROUNDS - 1 - (s.ciRnd.val - 1) = ROUNDS - 1 - s.ciRnd.val + 1 := by omega
    show cipherRound s.ciW (roundKey s.km s.ciRnd) = _
    simp only [hdone]
    rw [foldl_take_succ cipherRound _ (roundKeys s.km).reverse (descending_index_lt s.km s.ciRnd), getElem_roundKeys_reverse, hpi.decrypting hp]

theorem progressInv_engineStep {s : State} (hi : SeqInv s) (hpi : ProgressInv s) : ProgressInv (engineStep s) := by
  cases engine_outcome s with
  | idle _ e => rw [e]; exact hpi
  | deriveIter hp _ hj e => rw [e]; exact progressInv_deriveIter hi hpi hp hj
  | deriveBlock hp _ hj hb e => rw [e]; exact progressInv_deriveBlock hi hpi hp hj hb
  | encRound hp _ hr e => rw [e]; exact progressInv_encRound hpi hp hr
  | decRound hp _ hr e => rw [e]; exact progressInv_decRound hpi hp hr _
  | deriveDone _ hl _ _ _ | encDone _ hl _ _ | decDone _ hl _ _ =>
    obtain ⟨_, hidle, _⟩ := engineStep_completes hl
    exact progressInv_idle hidle

/-- Each effect a step can have keeps the invariant. -/
theorem progressInv_effect {s u : State} (hi : SeqInv s) (hpi : ProgressInv s) (he : Effect s u) : ProgressInv u := by
  cases he with
  | engine _ => exact progressInv_engineStep hi hpi
  | reset _ => exact progressInv_idle rfl
  | unchanged _ => exact hpi
  | ctrl w _ => exact progressInv_flags hpi _ s.done s.ovr
  | status w _ => exact progressInv_flags hpi s.ie _ _
  | dropped _ _ _ _ _ => exact progressInv_flags hpi s.ie s.done true
  | accepted i _ _ _ _ => exact progressInv_acceptArm i _
  | illegal _ _ _ _ _ => exact progressInv_idle rfl
  | secretLen _ _ hb | blockLen _ _ hb | secret _ _ _ _ hb | blockIn _ _ _ _ hb =>
    exact progressInv_idle (busy_eq_false.1 hb :)

/-- Settles O38: the step's effect keeps the invariant, and the invariant speaks of the hardware alone. -/
theorem everyStepKeepsTheProgressInvariant : Obligations.EveryStepKeepsTheProgressInvariant := by
  intro s t hi hpi ht
  obtain ⟨u, he, hu⟩ := step_effect ht
  rw [← progressInv_hw, hu, progressInv_hw]
  exact progressInv_effect hi hpi he

end Sys2Proof.Machine
end

section
/-! The 7000 engine steps of a DERIVE (R91 to R94): its counters on the way, what it leaves alone, and what it completes
with. -/

namespace Sys2Proof.Machine

open Config

/-- A state with every element that a DERIVE in progress writes (R92) blanked. -/
def State.besidesDerive (s : State) : State :=
  { s with km := Bytes.zeros DKLEN, ksBlk := 0, ksIter := 0, ksU := Bytes.zeros HLEN, ksT := Bytes.zeros HLEN }

/-- `u` is `k` engine steps into the DERIVE that started in `t`: the counters count the steps, and only the elements a
DERIVE in progress writes have changed. -/
structure DeriveAt (t : State) (k : Nat) (u : State) : Prop where
  /-- every other element is as at the start -/
  frame : u.besidesDerive = t.besidesDerive
  /-- 500 steps to a block -/
  blk : u.ksBlk.val = k / 500 + 1
  /-- one step to an iteration -/
  iter : u.ksIter.val = k % 500 + 1

theorem DeriveAt.phase {t u : State} {k : Nat} (h : DeriveAt t k u) (ht : t.phase = .derive) : u.phase = .derive :=
  (congrArg State.phase h.frame :).trans ht

theorem DeriveAt.secretOperand {t u : State} {k : Nat} (h : DeriveAt t k u) : secretOperand u = secretOperand t :=
  (congrArg Machine.secretOperand h.frame :)

/-- The 7000th step is the last. -/
theorem DeriveAt.stepsLeft_eq_one_iff {t u : State} {k : Nat} (h : DeriveAt t k u) (ht : t.phase = .derive) :
    stepsLeft u = 1 ↔ k = 6999 := by
  have hb := h.blk
  have hj := h.iter
  rw [stepsLeft_one_derive (h.phase ht)]
  omega

theorem DeriveAt.engineStep {t u : State} {k : Nat} (h : DeriveAt t k u) (ht : t.phase = .derive) (hk : k + 1 < 7000) :
    DeriveAt t (k + 1) (engineStep u) := by
  have hp := h.phase ht
  have hlast := h.stepsLeft_eq_one_iff ht
  have hb := h.blk
  have hj := h.iter
  cases engine_outcome u with
  | deriveIter _ _ hi e =>
    rw [e]
    exact ⟨h.frame, by show u.ksBlk.val = _; omega, by show u.ksIter.val + 1 = _; omega⟩
  | deriveBlock _ _ hi _ e =>
    rw [e]
    exact ⟨h.frame, by show u.ksBlk.val + 1 = _; omega, by show 1 = _; omega⟩
  | deriveDone _ hl _ _ _ => have := hlast.1 hl; omega
  | idle g _ | encRound g _ _ _ | encDone g _ _ _ | decRound g _ _ _ | decDone g _ _ _ => simp [hp] at g

/-- A DERIVE just started is at its first step, and `k` steps later at the next after `k` (R91). -/
theorem deriveAt_engineSteps {t : State} (h : DeriveAt t 0 t) (ht : t.phase = .derive) {k : Nat} (hk : k < 7000) :
    DeriveAt t k (engineSteps k t) := by
  induction k with
  | zero => exact h
  | succ k ih => rw [engineSteps_succ]; exact (ih (by omega)).engineStep ht hk

/-- What the acceptance of a DERIVE leaves: the engine at the first of the 7000 steps. -/
theorem deriveAt_of_exec {s t : State} (hb : busy s = false) (hl : s.secretLen.toNat ≤ SECRET_MAX)
    (ht : exec .derive s = .next t) : t.phase = .derive ∧ DeriveAt t 0 t := by
  rw [exec_derive_starts hb hl] at ht
  cases ht
  exact ⟨rfl, rfl, rfl, rfl⟩

/-- Settles O39: the counters count the steps, and the 7000th step completes. -/
theorem deriveCounterTrace : Obligations.DeriveCounterTrace := by
  intro s t hb hl ht
  obtain ⟨hp, h0⟩ := deriveAt_of_exec hb hl ht
  refine ⟨fun k hk => ?_, ?_⟩
  · have h := deriveAt_engineSteps h0 hp hk
    exact ⟨h.phase hp, h.blk, h.iter⟩
  · have h := deriveAt_engineSteps h0 hp (k := 6999) (by decide)
    rw [engineSteps_succ 6999]
    obtain ⟨_, hidle, _⟩ := engineStep_completes ((h.stepsLeft_eq_one_iff hp).2 rfl)
    exact hidle

/-- Both invariants hold after any number of engine steps. -/
theorem inv_engineSteps {s : State} (hi : SeqInv s) (hpi : ProgressInv s) (k : Nat) :
    SeqInv (engineSteps k s) ∧ ProgressInv (engineSteps k s) := by
  induction k with
  | zero => exact ⟨hi, hpi⟩
  | succ k ih =>
    obtain ⟨hi, hpi⟩ := ih
    rw [engineSteps_succ]
    exact ⟨seqInv_engineStep hi, progressInv_engineStep hi hpi⟩

/-- The last iteration of the last block leaves the key material of the secret in KM (R93, R94). -/
theorem deriveKm_eq_deriveKey {s : State} (hi : SeqInv s) (hpi : ProgressInv s) (hp : s.phase = .derive)
    (hj : s.ksIter.val = ITER) (hb : s.ksBlk.val = KS_BLOCKS) : deriveKm s = deriveKey (secretOperand s) :=
  km_ext fun i h => by rw [deriveKm_slice hi hpi hp hj (h.trans_eq hb.symm), deriveKey_slice _ h]

/-- The completing step of a DERIVE (R93, R94). -/
theorem engineStep_derive_completes {s : State} (hi : SeqInv s) (hpi : ProgressInv s) (hp : s.phase = .derive)
    (hl : stepsLeft s = 1) : engineStep s = deriveComplete { s with km := deriveKey (secretOperand s) } := by
  cases engine_outcome s with
  | deriveDone _ _ hj hb e => rw [e, deriveKm_eq_deriveKey hi hpi hp hj hb]
  | deriveIter _ h _ _ | deriveBlock _ h _ _ _ => exact absurd hl h
  | idle g _ | encRound g _ _ _ | encDone g _ _ _ | decRound g _ _ _ | decDone g _ _ _ => simp [hp] at g

/-- The completion of a DERIVE overwrites or clears what a DERIVE in progress writes. -/
theorem deriveComplete_congr {s t : State} (h : s.besidesDerive = t.besidesDerive) (km : Bytes DKLEN) :
    deriveComplete { s with km := km } = deriveComplete { t with km := km } :=
  (congrArg (fun x => deriveComplete { x with km := km }) h :)

/-- The 7000 engine steps of a DERIVE: its start, completed with the key material of the secret. -/
theorem engineSteps_derive {t : State} (h0 : DeriveAt t 0 t) (hp : t.phase = .derive) (hi : SeqInv t)
    (hpi : ProgressInv t) : engineSteps 7000 t = deriveComplete { t with km := deriveKey (secretOperand t) } := by
  have h := deriveAt_engineSteps h0 hp (k := 6999) (by decide)
  obtain ⟨hi', hpi'⟩ := inv_engineSteps hi hpi 6999
  have hl := h.stepsLeft_eq_one_iff hp |>.2 rfl
  calc engineSteps 7000 t
      = engineStep (engineSteps 6999 t) := engineSteps_succ 6999 t
    _ = deriveComplete { engineSteps 6999 t with km := deriveKey (secretOperand t) } := by
        rw [engineStep_derive_completes hi' hpi' (h.phase hp) hl, h.secretOperand]
    _ = deriveComplete { t with km := deriveKey (secretOperand t) } :=
        deriveComplete_congr h.frame _

/-- Settles O40: the start and the completion of a DERIVE put together; the elements the completion clears were clear in the
idle state already. -/
theorem deriveComputesTheKeyMaterial : Obligations.DeriveComputesTheKeyMaterial := by
  intro s t hi hb hl ht
  have hidle := busy_eq_false.1 hb
  obtain ⟨hp, h0⟩ := deriveAt_of_exec hb hl ht
  rw [exec_derive_starts hb hl] at ht
  cases ht
  rw [engineSteps_derive h0 hp (seqInv_startDerive hi hidle hl _) (progressInv_startDerive _)]
  obtain ⟨hK0, hBlk, hIter, hU, hT⟩ := hi.ksClear (by simp [hidle])
  obtain ⟨hW, hRnd⟩ := hi.ciClear (by simp [hidle]) (by simp [hidle])
  simp only [deriveComplete, complete, startLong, hidle, hK0, hBlk, hIter, hU, hT, hW, hRnd]
  rfl

/-- Settles O41: the DERIVE of O40 with nothing of SECRET taken. -/
theorem emptySecretDerives : Obligations.EmptySecretDerives := by
  intro s hi hb hlen
  have hl : s.secretLen.toNat ≤ SECRET_MAX := by simp [hlen]
  have hsec : secretOperand s = [] := by simp [secretOperand, hlen]
  have hend := deriveComputesTheKeyMaterial s _ hi hb hl (exec_derive_starts hb hl)
  refine ⟨_, exec_derive_starts hb hl, ?_⟩
  rw [hend]
  exact ⟨(congrArg hkey hsec).trans hkey_nil, congrArg deriveKey hsec, rfl, rfl, hb⟩

end Sys2Proof.Machine
end

section
/-! The halves of a block (R97, R99, R100), and the cipher functions as inverses of each other (R107): swapping the halves
turns a round into its own inverse, so the rounds descending undo the rounds ascending. -/

namespace Sys2Proof.Machine

open Config

/-- A block is its two halves (R99). -/
theorem block_ext {a b : Bytes BLOCK} (hl : leftHalf a = leftHalf b) (hr : rightHalf a = rightHalf b) : a = b := by
  rw [← joinHalves_halves a, hl, hr, joinHalves_halves]

@[simp] theorem swapHalves_swapHalves (b : Bytes BLOCK) : swapHalves (swapHalves b) = b :=
  block_ext (by simp) (by simp)

theorem leftHalf_data (b : Bytes BLOCK) : (leftHalf b).data = b.data.take HALF := rfl

theorem rightHalf_data (b : Bytes BLOCK) : (rightHalf b).data = b.data.drop HALF :=
  List.take_of_length_le (by rw [List.length_drop, bytes_length]; decide)

theorem swapHalves_data (b : Bytes BLOCK) : (swapHalves b).data = b.data.drop HALF ++ b.data.take HALF := by
  rw [← rightHalf_data, ← leftHalf_data]; rfl

/-- Settles O53: each operation on the bytes of its operands. -/
theorem byteVectorPrimitives : Obligations.ByteVectorPrimitives :=
  ⟨fun _ => get_xorBytes, fun b => ⟨leftHalf_data b, rightHalf_data b⟩,
    fun b => ⟨swapHalves_data b, swapHalves_swapHalves b⟩⟩

/-- A round on the swapped halves of its own result takes the same hash away again (R107). -/
theorem cipherRound_swapHalves_cipherRound (x : Bytes BLOCK) (k : Bytes HALF) :
    cipherRound (swapHalves (cipherRound x k)) k = swapHalves x :=
  block_ext (by simp) (by simp)

/-- The rounds under any keys are undone by the rounds under the same keys in the opposite order. -/
theorem foldl_cipherRound_reverse (ks : List (Bytes HALF)) (x : Bytes BLOCK) :
    ks.reverse.foldl cipherRound (swapHalves (ks.foldl cipherRound x)) = swapHalves x := by
  induction ks generalizing x with
  | nil => rfl
  | cons k ks ih =>
    rw [List.reverse_cons, List.foldl_append, List.foldl_cons, List.foldl_nil, List.foldl_cons, ih]
    exact cipherRound_swapHalves_cipherRound x k

theorem decryptBlock_encryptBlock (km : Bytes DKLEN) (p : Bytes BLOCK) : decryptBlock km (encryptBlock km p) = p := by
  rw [decryptBlock, decryptRounds, encryptBlock, xorBytes_cancel, encryptRounds, foldl_cipherRound_reverse,
    swapHalves_swapHalves, xorBytes_cancel]

theorem encryptBlock_decryptBlock (km : Bytes DKLEN) (c : Bytes BLOCK) : encryptBlock km (decryptBlock km c) = c := by
  have hundo := foldl_cipherRound_reverse (roundKeys km).reverse (xorBytes c (postkey km))
  rw [List.reverse_reverse] at hundo
  rw [encryptBlock, encryptRounds, decryptBlock, xorBytes_cancel, decryptRounds, hundo, swapHalves_swapHalves,
    xorBytes_cancel]

/-- Settles O54: the whitenings cancel, and between them the rounds in one order undo those in the other. -/
theorem decryptionInvertsEncryption : Obligations.DecryptionInvertsEncryption :=
  ⟨decryptBlock_encryptBlock, encryptBlock_decryptBlock, cipherRound_swapHalves_cipherRound⟩

end Sys2Proof.Machine
end

section
/-! The hash of a message that pads to one block (R72, R103). -/

namespace Sys2Proof.Machine

/-- The hash of at most 55 bytes: one compression, from the initial value, of the one padded block. -/
theorem sha256_one_block {m : List Byte} (hm : m.length ≤ 55) :
    sha256 m =
      digestBytes (compress initialHash
        (m ++ [0x80#8] ++ List.replicate (55 - m.length) 0#8 ++ be64 (BitVec.ofNat 64 (8 * m.length)))) := by
  have hz : padZeros m.length = 55 - m.length := by unfold padZeros; omega
  have hlen : (padMessage m).length = 64 := by rw [length_padMessage, hz]; omega
  have hblock : sha256 m = digestBytes (compress initialHash (padMessage m)) := by
    simp only [sha256, hlen, Nat.div_self, Nat.zero_lt_succ, compressBlocks, List.take_of_length_le hlen.le]
  rw [hblock, padMessage, hz]
  simp only [List.append_assoc, List.cons_append, List.nil_append]

/-- Settles O48: 32 bytes leave room for 23 zeros, and their length is 256 bits. -/
theorem roundHashIsOneCompression : Obligations.RoundHashIsOneCompression := by
  intro x
  rw [sha256_one_block (by rw [bytes_length]; decide), bytes_length]
  rfl

end Sys2Proof.Machine
end

section
/-! The acceptance of an ENCRYPT or DECRYPT by an idle engine (R108 to R110, R131). -/

namespace Sys2Proof.Machine

open Config

/-- With no key either command is rejected, whatever the block length. -/
theorem exec_cipher_noKey {i : Instr} (hc : i = .encrypt ∨ i = .decrypt) {s : State} (hb : busy s = false)
    (hk : s.keyValid = false) : exec i s = .next (complete .noKey { s with lastOp := opcodeOf i }) := by
  rw [exec_idle i hb]
  rcases hc with rfl | rfl
  · simpa [acceptArm, hk] using acceptEncrypt_cases { s with lastOp := opcodeOf .encrypt }
  · simpa [acceptArm, hk] using acceptDecrypt_cases { s with lastOp := opcodeOf .decrypt }

/-- With a key but another block length either command is rejected. -/
theorem exec_cipher_invalidBlockSize {i : Instr} (hc : i = .encrypt ∨ i = .decrypt) {s : State} (hb : busy s = false)
    (hk : s.keyValid = true) (hl : s.blockLen.toNat ≠ BLOCK) :
    exec i s = .next (complete .invalidBlockSize { s with lastOp := opcodeOf i }) := by
  rw [exec_idle i hb]
  rcases hc with rfl | rfl
  · simpa [acceptArm, hk, hl] using acceptEncrypt_cases { s with lastOp := opcodeOf .encrypt }
  · simpa [acceptArm, hk, hl] using acceptDecrypt_cases { s with lastOp := opcodeOf .decrypt }

/-- An ENCRYPT that passes its checks (R108). -/
theorem exec_encrypt_starts {s : State} (hb : busy s = false) (hk : s.keyValid = true) (hl : s.blockLen.toNat = BLOCK) :
    exec .encrypt s = .next
      { startLong .enc { s with lastOp := 0x2#4 } with ciW := xorBytes s.blockIn (prekey s.km), ciRnd := 0 } := by
  rw [exec_idle .encrypt hb]
  rcases acceptEncrypt_cases { s with lastOp := opcodeOf .encrypt } with ⟨h, _⟩ | ⟨_, h, _⟩ | ⟨_, _, e⟩
  · simp [hk] at h
  · exact absurd hl h
  · exact congrArg Host.Outcome.next e

/-- A DECRYPT that passes its checks (R109). -/
theorem exec_decrypt_starts {s : State} (hb : busy s = false) (hk : s.keyValid = true) (hl : s.blockLen.toNat = BLOCK) :
    exec .decrypt s = .next
      { startLong .dec { s with lastOp := 0x3#4 } with ciW := xorBytes s.blockIn (postkey s.km), ciRnd := 9 } := by
  rw [exec_idle .decrypt hb]
  rcases acceptDecrypt_cases { s with lastOp := opcodeOf .decrypt } with ⟨h, _⟩ | ⟨_, h, _⟩ | ⟨_, _, e⟩
  · simp [hk] at h
  · exact absurd hl h
  · exact congrArg Host.Outcome.next e

/-- The two rejections as the whole next state: the completion changes the status alone. -/
theorem exec_cipher_rejects {i : Instr} (hc : i = .encrypt ∨ i = .decrypt) {s : State} (hi : SeqInv s)
    (hb : busy s = false) :
    (s.keyValid = false → exec i s = .next { s with err := 3#4, done := true, lastOp := opcodeOf i }) ∧
    (s.keyValid = true → s.blockLen.toNat ≠ BLOCK →
      exec i s = .next { s with err := 1#4, done := true, lastOp := opcodeOf i }) := by
  constructor
  · intro hk
    rw [exec_cipher_noKey hc hb hk, complete_of_idle hi hb, codeBits]
  · intro hk hl
    rw [exec_cipher_invalidBlockSize hc hb hk hl, complete_of_idle hi hb, codeBits]

/-- Settles O7: the start, and the two rejections ENCRYPT shares with DECRYPT. -/
theorem encryptStartsOrRejects : Obligations.EncryptStartsOrRejects :=
  fun _ hi hb => ⟨exec_encrypt_starts hb, exec_cipher_rejects (.inl rfl) hi hb⟩

/-- Settles O8: the start, and the two rejections DECRYPT shares with ENCRYPT. -/
theorem decryptStartsOrRejects : Obligations.DecryptStartsOrRejects :=
  fun _ hi hb => ⟨exec_decrypt_starts hb, exec_cipher_rejects (.inr rfl) hi hb⟩

end Sys2Proof.Machine
end

section
/-! What an ENCRYPT or DECRYPT completes with (R112, R114, R115), and its ten engine steps (R116, R117). -/

namespace Sys2Proof.Machine

open Config

/-- The cipher function of the phase of an ENCRYPT (R105) or of a DECRYPT (R106). -/
def cipherOf : Phase → Bytes DKLEN → Bytes BLOCK → Bytes BLOCK
  | .dec => decryptBlock
  | _ => encryptBlock

/-- The last round of an ENCRYPT ends step 2 of R105. -/
theorem stepRound_enc_last {s : State} (hpi : ProgressInv s) (hp : s.phase = .enc) (hr : s.ciRnd.val = 9) :
    stepRound s = encryptRounds s.km s.blockIn := by
  have hall : (roundKeys s.km).take (s.ciRnd.val + 1) = roundKeys s.km :=
    List.take_of_length_le (by rw [length_roundKeys, hr])
  rw [stepRound, hpi.encrypting hp, ← getElem_roundKeys, ← foldl_take_succ cipherRound, hall, encryptRounds]

/-- The last round of a DECRYPT ends step 2 of R106. -/
theorem stepRound_dec_last {s : State} (hpi : ProgressInv s) (hp : s.phase = .dec) (hr : s.ciRnd.val = 0) :
    stepRound s = decryptRounds s.km s.blockIn := by
  have hall : (roundKeys s.km).reverse.take (ROUNDS - 1 - s.ciRnd.val + 1) = (roundKeys s.km).reverse :=
    List.take_of_length_le (by rw [List.length_reverse, length_roundKeys, hr]; decide)
  rw [stepRound, hpi.decrypting hp, ← getElem_roundKeys_reverse, ← foldl_take_succ cipherRound, hall, decryptRounds]

/-- The completing step of an ENCRYPT or DECRYPT delivers its function of the inputs still in the registers (R115). -/
theorem engineStep_cipher_completes {s : State} (hpi : ProgressInv s) (hc : s.phase = .enc ∨ s.phase = .dec)
    (hl : stepsLeft s = 1) :
    engineStep s = complete .none { s with blockOut := cipherOf s.phase s.km s.blockIn } := by
  cases engine_outcome s with
  | encDone hp _ hr e => rw [e, stepRound_enc_last hpi hp hr, hp]; rfl
  | decDone hp _ hr e => rw [e, stepRound_dec_last hpi hp hr, hp]; rfl
  | encRound _ h _ _ | decRound _ h _ _ => exact absurd hl h
  | idle hp _ | deriveIter hp _ _ _ | deriveBlock hp _ _ _ _ | deriveDone hp _ _ _ _ => simp [hp] at hc

/-- Settles O44: the step that completes is an engine step, and either kind of command's completion is known. -/
theorem completionDeliversTheResult : Obligations.CompletionDeliversTheResult := by
  intro s t hi hpi hn ht
  obtain ⟨hd, hp, he⟩ := step_completes hn ht
  obtain ⟨hturn, hl⟩ := hn
  have hu := step_engine_hw hturn ht
  have hout : s.phase = .enc ∨ s.phase = .dec → t.blockOut = cipherOf s.phase s.km s.blockIn := fun hc => by
    rw [eq_of_hw State.blockOut hu fun _ => rfl, engineStep_cipher_completes hpi hc hl]; rfl
  refine ⟨fun h => ?enc, fun h => ?dec, fun h => ?derive, hp, he, hd⟩
  case enc => rw [hout (.inl h), h]; rfl
  case dec => rw [hout (.inr h), h]; rfl
  case derive =>
    rw [engineStep_derive_completes hi hpi h hl] at hu
    exact ⟨(eq_of_hw State.km hu fun _ => rfl :), (eq_of_hw State.keyValid hu fun _ => rfl :),
      (eq_of_hw State.secret hu fun _ => rfl :), (eq_of_hw State.secretLen hu fun _ => rfl :)⟩

/-- A round that is not the last touches CI_W and CI_RND alone (R111, R113), and one step fewer is left. -/
theorem engineStep_cipher_continues {s : State} (hc : s.phase = .enc ∨ s.phase = .dec) (hl : stepsLeft s ≠ 1) :
    (∃ w r, engineStep s = { s with ciW := w, ciRnd := r }) ∧ stepsLeft (engineStep s) + 1 = stepsLeft s := by
  cases engine_outcome s with
  | encRound hp _ hr e =>
    refine ⟨⟨_, _, e⟩, ?_⟩
    rw [e]
    simp only [stepsLeft, hp, ROUNDS]
    omega
  | decRound hp _ hr e =>
    refine ⟨⟨_, _, e⟩, ?_⟩
    rw [e]
    simp only [stepsLeft, hp]
    omega
  | encDone _ h _ _ | decDone _ h _ _ => exact absurd h hl
  | idle hp _ | deriveIter hp _ _ _ | deriveBlock hp _ _ _ _ | deriveDone hp _ _ _ _ => simp [hp] at hc

/-- Fewer than ten engine steps into an ENCRYPT or DECRYPT only CI_W and CI_RND have changed, and the steps are counted. -/
theorem engineSteps_cipher_continues {t : State} (hc : t.phase = .enc ∨ t.phase = .dec) (ht : stepsLeft t = 10) {k : Nat}
    (hk : k < 10) :
    (∃ w r, engineSteps k t = { t with ciW := w, ciRnd := r }) ∧ stepsLeft (engineSteps k t) + k = 10 := by
  induction k with
  | zero => exact ⟨⟨t.ciW, t.ciRnd, rfl⟩, ht⟩
  | succ k ih =>
    obtain ⟨⟨w, r, hk'⟩, hleft⟩ := ih (by omega)
    rw [engineSteps_succ]
    obtain ⟨⟨w', r', e⟩, hstep⟩ := engineStep_cipher_continues (s := engineSteps k t) (by rw [hk']; exact hc) (by omega)
    exact ⟨⟨w', r', by rw [e, hk']⟩, by omega⟩

/-- The ten engine steps of an ENCRYPT or DECRYPT: its start, completed with its function of KM and BLOCK_IN. -/
theorem engineSteps_cipher_ten {t : State} (hi : SeqInv t) (hpi : ProgressInv t) (hc : t.phase = .enc ∨ t.phase = .dec)
    (ht : stepsLeft t = 10) :
    engineSteps 10 t = complete .none { t with blockOut := cipherOf t.phase t.km t.blockIn } := by
  obtain ⟨_, hpi9⟩ := inv_engineSteps hi hpi 9
  obtain ⟨⟨w, r, e⟩, hl⟩ := engineSteps_cipher_continues hc ht (k := 9) (by decide)
  rw [engineSteps_succ 9, engineStep_cipher_completes hpi9 (by rw [e]; exact hc) (by omega), e]
  rfl

/-- What the ten engine steps after the start of an ENCRYPT or DECRYPT make of the idle state before it: the elements the
completion clears were clear there already. -/
theorem engineSteps_of_startCipher {s t : State} (hi : SeqInv s) (hb : busy s = false) (hk : s.keyValid = true)
    (hlen : s.blockLen.toNat = BLOCK) {p : Phase} (hc : p = .enc ∨ p = .dec) {w : Bytes BLOCK} {r : Fin ROUNDS}
    (ht : t = { startLong p { s with lastOp := phaseOp p } with ciW := w, ciRnd := r }) (hpi : ProgressInv t)
    (hl : stepsLeft t = 10) :
    (∀ k, k < 10 → (engineSteps k t).phase = p) ∧
      engineSteps 10 t =
        { s with blockOut := cipherOf p s.km s.blockIn, err := 0#4, done := true, lastOp := phaseOp p } := by
  subst ht
  constructor
  · intro k hlt
    obtain ⟨⟨_, _, e⟩, _⟩ := engineSteps_cipher_continues hc hl hlt
    rw [e]
    rfl
  · rw [engineSteps_cipher_ten (seqInv_startCipher hi (busy_eq_false.1 hb) hk hlen hc rfl w r) hpi hc hl]
    exact congrArg (fun u : State => { u with blockOut := cipherOf p s.km s.blockIn })
      (complete_of_idle hi hb .none (phaseOp p))

/-- Settles O43: both commands start with ten steps left. -/
theorem cipherCommandsTakeTenSteps : Obligations.CipherCommandsTakeTenSteps := by
  intro s t hi hb hk hlen
  constructor
  · intro ht
    rw [exec_encrypt_starts hb hk hlen] at ht
    cases ht
    exact engineSteps_of_startCipher hi hb hk hlen (.inl rfl) rfl (progressInv_startEncrypt _) rfl
  · intro ht
    rw [exec_decrypt_starts hb hk hlen] at ht
    cases ht
    exact engineSteps_of_startCipher hi hb hk hlen (.inr rfl) rfl (progressInv_startDecrypt _) rfl

end Sys2Proof.Machine
end

section
/-! The control commands NOP (R119) and ZEROIZE (R120), issued to an idle engine. -/

namespace Sys2Proof.Machine

theorem exec_nop_idle {s : State} (hi : SeqInv s) (hb : busy s = false) :
    exec .nop s = .next { s with err := 0#4, done := true, lastOp := 0x0#4 } := by
  rw [exec_idle .nop hb, acceptArm, acceptNop, complete_of_idle hi hb, codeBits, opcodeOf]

/-- R119's example: the command word written at reset, and the STATUS word that follows. -/
theorem nop_from_reset :
    ∃ t, busWrite 0x014#12 4 0x00000000#32 State.reset = .next t ∧ busRead 0x018#12 4 t = some 0x00000002#32 := by
  have hw : busWrite 0x014#12 4 0x00000000#32 State.reset = exec .nop State.reset :=
    busWrite_cmd_of_decode (decode_encode .nop) State.reset
  refine ⟨_, hw.trans (exec_nop_idle sequencerInvariantAtReset rfl), ?_⟩
  rw [busRead_status]
  decide

/-- Settles O4: the completion within the CMD write, from which irq is IE; the drop while busy; the example. -/
theorem nopCompletesAtOnce : Obligations.NopCompletesAtOnce :=
  ⟨fun s hi hb => ⟨exec_nop_idle hi hb, Bool.true_and s.ie⟩, fun _ hb => exec_busy .nop hb, nop_from_reset⟩

/-- An accepted ZEROIZE is a reset of the engine, but for IE, OVR and the completion it reports. It needs no invariant:
what ZEROIZE does not clear itself, its completion does. -/
theorem exec_zeroize_idle {s : State} (hb : busy s = false) :
    exec .zeroize s = .next { assertReset s with ie := s.ie, ovr := s.ovr, done := true, lastOp := 0x4#4 } :=
  exec_idle .zeroize hb

/-- ZEROIZE leaves no key, so either cipher command is rejected; DONE is set and the internal elements are clear already,
so the rejection changes the code and LAST_OP alone. -/
theorem exec_cipher_of_exec_zeroize {i : Instr} (hc : i = .encrypt ∨ i = .decrypt) {s t : State} (hb : busy s = false)
    (ht : exec .zeroize s = .next t) : exec i t = .next { t with err := 3#4, lastOp := opcodeOf i } := by
  obtain rfl := Host.Outcome.next.inj ((exec_zeroize_idle hb).symm.trans ht)
  exact exec_cipher_noKey hc rfl rfl

/-- Settles O5: the whole next state, the two rejections that follow, and the drop while busy. -/
theorem zeroizeLeavesTheResetState : Obligations.ZeroizeLeavesTheResetState :=
  ⟨fun _ hb => exec_zeroize_idle hb,
    fun _ _ hb ht => ⟨exec_cipher_of_exec_zeroize (.inl rfl) hb ht, exec_cipher_of_exec_zeroize (.inr rfl) hb ht⟩,
    fun _ hb => exec_busy .zeroize hb⟩

end Sys2Proof.Machine
end

section
/-! A CMD write by the code it completes with (R126 to R132): a rejection is a completion and nothing else, and the checks come
in R131's order. -/

namespace Sys2Proof.Machine

open Config

/-- An idle engine accepts the command of the word written to CMD, or completes with IllegalCommand (R129). -/
theorem busWrite_cmd_idle {s t : State} {w : Word} (hb : busy s = false) (ht : busWrite 0x014#12 4 w s = .next t) :
    (∃ i, t = acceptArm i { s with lastOp := opcodeOf i }) ∨ t = complete .illegalCommand { s with lastOp := 0xF#4 } := by
  cases hd : decode w with
  | ok i =>
    rw [busWrite_cmd_of_decode hd, exec_idle i hb] at ht
    cases ht
    exact .inl ⟨i, rfl⟩
  | error e =>
    rw [busWrite_cmd_of_illegal hd, issueIllegal_idle hb] at ht
    cases ht
    exact .inr rfl

/-- A command that is not rejected leaves ERR 0: it starts, or it is NOP or ZEROIZE. -/
theorem acceptArm_rejected {i : Instr} {s : State} (h : (acceptArm i s).err ≠ 0#4) : ∃ c, acceptArm i s = complete c s := by
  cases accept_outcome i s with
  | completes c _ e => exact ⟨c, e⟩
  | zeroizes _ e | derives _ _ e | ciphers _ _ _ _ _ _ e => exact absurd (congrArg State.err e :) h

/-- Settles O9: a rejection is a completion within the write, which changes the status alone in an idle state. -/
theorem rejectedCommandChangesStatusOnly : Obligations.RejectedCommandChangesStatusOnly := by
  intro s t w hi hb ht herr
  rcases busWrite_cmd_idle hb ht with ⟨i, rfl⟩ | rfl
  · obtain ⟨c, e⟩ := acceptArm_rejected herr
    rw [e, complete_of_idle hi hb]
  · rw [complete_of_idle hi hb]

/-- An access that reaches no register is a bus error (R127). -/
theorem busWrite_of_no_access {off : BitVec 12} {size : Nat} (h : accessReg off size = none) (w : Word) (s : State) :
    busWrite off size w s = .fault (.busError off) := by simp [busWrite, h]

/-- The five commands are the words 0 to 4, so any other word exceeds 4 (R61, R62). -/
theorem four_lt_of_decode_error {w : Word} {e : Illegal} (h : decode w = .error e) : 4 < w.toNat := by
  have hw : w.toNat = (rsvdField w).toNat * 16 + (opField w).toNat := by
    simp only [rsvdField, opField, BitVec.extractLsb'_toNat]
    omega
  rcases (exists_decode_eq_error_iff w).1 ⟨e, h⟩ with ⟨_, hop⟩ | hr
  · omega
  · have : (rsvdField w).toNat ≠ 0 := fun h0 => hr (BitVec.eq_of_toNat_eq h0)
    omega

/-- The code right after a DERIVE is issued (R89, R90). -/
theorem exec_derive_err {s : State} (hb : busy s = false) :
    ∃ t, exec .derive s = .next t ∧ t.err = if SECRET_MAX < s.secretLen.toNat then 2#4 else 0#4 := by
  by_cases hl : SECRET_MAX < s.secretLen.toNat
  · exact ⟨_, exec_derive_rejects hb hl, (if_pos hl).symm⟩
  · exact ⟨_, exec_derive_starts hb (Nat.le_of_not_lt hl), (if_neg hl).symm⟩

/-- The code right after an ENCRYPT or DECRYPT is issued: NoKey before InvalidBlockSize (R131). -/
theorem exec_cipher_err {i : Instr} (hc : i = .encrypt ∨ i = .decrypt) {s : State} (hb : busy s = false) :
    ∃ t, exec i s = .next t ∧
      t.err = if s.keyValid = false then 3#4 else if s.blockLen.toNat ≠ BLOCK then 1#4 else 0#4 := by
  cases hk : s.keyValid with
  | false => exact ⟨_, exec_cipher_noKey hc hb hk, rfl⟩
  | true =>
    by_cases hl : s.blockLen.toNat = BLOCK
    · rcases hc with rfl | rfl
      · exact ⟨_, exec_encrypt_starts hb hk hl, (if_neg (not_not_intro hl)).symm⟩
      · exact ⟨_, exec_decrypt_starts hb hk hl, (if_neg (not_not_intro hl)).symm⟩
    · exact ⟨_, exec_cipher_invalidBlockSize hc hb hk hl, (if_pos hl).symm⟩

/-- Settles O10: no register, no command; busy, the drop; idle, the illegal words, then each command's own checks. -/
theorem errorPriority : Obligations.ErrorPriority := by
  intro s w
  refine ⟨fun off size h => busWrite_of_no_access (accessReg_none.2 h) w s,
    fun hb => busWrite_dropped ⟨by decide, .inl rfl⟩ w hb, fun hb => ?idle⟩
  cases hd : decode w with
  | error e =>
    rw [busWrite_cmd_of_illegal hd, issueIllegal_idle hb, if_pos (four_lt_of_decode_error hd)]
    exact ⟨_, rfl, rfl⟩
  | ok i =>
    rw [busWrite_cmd_of_decode hd]
    obtain rfl := eq_encode_of_decode hd
    cases i with
    | nop => exact ⟨_, exec_idle .nop hb, rfl⟩
    | derive => exact exec_derive_err hb
    | encrypt => exact exec_cipher_err (.inl rfl) hb
    | decrypt => exact exec_cipher_err (.inr rfl) hb
    | zeroize => exact ⟨_, exec_zeroize_idle hb, rfl⟩

end Sys2Proof.Machine
end

section
/-! The interrupt mask (R19, R133, R134): the engine and the CMD writes do not read CTRL.IE, and DONE waits for it. -/

namespace Sys2Proof.Machine

/-- No engine step reads IE. -/
theorem engineStep_with_ie (s : State) (b : Bool) : engineStep { s with ie := b } = { engineStep s with ie := b } := by
  refine engineStep_commutes (fun x => { x with ie := b }) s rfl ?derive ?enc ?dec
  case derive =>
    simp only [deriveStep]
    split
    · rfl
    · split <;> rfl
  case enc | dec =>
    simp only [encStep, decStep]
    split <;> rfl

/-- No acceptance arm reads IE. -/
theorem acceptArm_with_ie (i : Instr) (s : State) (b : Bool) :
    acceptArm i { s with ie := b } = { acceptArm i s with ie := b } := by
  cases i with
  | nop | zeroize => rfl
  | derive =>
    simp only [acceptArm, acceptDerive]
    split <;> rfl
  | encrypt | decrypt =>
    simp only [acceptArm, acceptEncrypt, acceptDecrypt]
    split
    · rfl
    · split <;> rfl

/-- The busy gate does not read IE. -/
theorem unlessBusy_with_ie {f : State → State} {b : Bool} (hf : ∀ x : State, f { x with ie := b } = { f x with ie := b })
    (s : State) : unlessBusy f { s with ie := b } = { unlessBusy f s with ie := b } := by
  cases hb : busy s with
  | true => rw [unlessBusy_busy f hb]; exact unlessBusy_busy f (s := { s with ie := b }) hb
  | false => rw [unlessBusy_idle f hb, ← hf]; exact unlessBusy_idle f (s := { s with ie := b }) hb

/-- A CMD write does not read IE, whether it is dropped, accepted or illegal. -/
theorem busWrite_cmd_with_ie {s t : State} {w : Word} (ht : busWrite 0x014#12 4 w s = .next t) (b : Bool) :
    busWrite 0x014#12 4 w { s with ie := b } = .next { t with ie := b } := by
  cases hd : decode w with
  | ok i =>
    rw [busWrite_cmd_of_decode hd, exec_eq] at ht ⊢
    cases ht
    rw [unlessBusy_with_ie fun x => acceptArm_with_ie i { x with lastOp := opcodeOf i } b]
  | error e =>
    rw [busWrite_cmd_of_illegal hd, issueIllegal, issueCommand] at ht ⊢
    cases ht
    rw [unlessBusy_with_ie fun x => rfl]

/-- A CMD write leaves IE: writing IE's own value first changes nothing. -/
theorem busWrite_cmd_ie {s t : State} {w : Word} (ht : busWrite 0x014#12 4 w s = .next t) : t.ie = s.ie :=
  (congrArg State.ie (Host.Outcome.next.inj (ht.symm.trans (busWrite_cmd_with_ie ht s.ie))) :)

/-- After a CMD write to an idle engine a command is in progress or DONE is set, and not both (R129, R130). -/
theorem busWrite_cmd_idle_done {s t : State} {w : Word} (hb : busy s = false) (ht : busWrite 0x014#12 4 w s = .next t) :
    t.done = !busy t := by
  rcases busWrite_cmd_idle hb ht with ⟨i, rfl⟩ | rfl
  · exact acceptArm_done i _
  · rfl

theorem eq_writeCtrl_of_busWrite {s t : State} {w : Word} (ht : busWrite 0x010#12 4 w s = .next t) : t = writeCtrl w s :=
  Host.Outcome.next.inj (ht.symm.trans (busWrite_of_access accessReg_ctrl w s))

/-- Settles O25: IE is read by irq alone, so DONE is set the same under either value, and irq follows IE while DONE stays. -/
theorem maskingLosesNoCompletion : Obligations.MaskingLosesNoCompletion := by
  refine ⟨engineStep_with_ie, fun s t b w ht => busWrite_cmd_with_ie ht b, fun s t hdone ht => ?unmask, fun s t ht => ?mask,
    fun s t w hb hie ht hbt => ?immediate⟩
  case unmask =>
    rw [eq_writeCtrl_of_busWrite ht, irq, writeCtrl, hdone]
    rfl
  case mask =>
    rw [eq_writeCtrl_of_busWrite ht]
    exact ⟨Bool.and_false s.done, rfl⟩
  case immediate => rw [irq, busWrite_cmd_idle_done hb ht, hbt, busWrite_cmd_ie ht, hie, Bool.not_false, Bool.true_and]

end Sys2Proof.Machine
end

section
/-! Reset (R142, R144) and STATUS right after a command is issued (R153). -/

namespace Sys2Proof.Machine

/-- Settles O15: a reset step is `assertReset`, which keeps no element of R38. -/
theorem resetSetsEveryElement : Obligations.ResetSetsEveryElement := by
  intro s t ht
  obtain rfl : assertReset s = t := Host.Outcome.next.inj ht
  and_intros <;> rfl

/-- Settles O11: bits 0 and 1 of the STATUS word are BUSY and DONE, and a CMD write to an idle engine leaves exactly one of
them set. -/
theorem statusAfterIssueShowsBusyOrDone : Obligations.StatusAfterIssueShowsBusyOrDone := by
  intro s w hb
  obtain ⟨t, ht⟩ : ∃ t, busWrite 0x014#12 4 w s = .next t :=
    ⟨_, (busWrite_of_access accessReg_cmd w s).trans (writeReg_eq .cmd w s)⟩
  refine ⟨t, statusWord t, ht, busRead_status t, ?_⟩
  have hbit0 : (statusWord t).getLsbD 0 = busy t := getLsbD_statusWord t (by omega)
  have hbit1 : (statusWord t).getLsbD 1 = t.done := getLsbD_statusWord t (by omega)
  rw [hbit0, hbit1, busWrite_cmd_idle_done hb ht, Bool.not_not]

end Sys2Proof.Machine
end

section
/-! A DERIVE after a DERIVE (R152). -/

namespace Sys2Proof.Machine

/-- The sequencer's invariant holds after an accepted command and any number of engine steps. -/
theorem seqInv_engineSteps_of_exec {i : Instr} {s t : State} (hi : SeqInv s) (hb : busy s = false)
    (ht : exec i s = .next t) (k : Nat) : SeqInv (engineSteps k t) := by
  rw [exec_idle i hb] at ht
  cases ht
  exact (inv_engineSteps (seqInv_acceptArm i hi (busy_eq_false.1 hb)) (progressInv_acceptArm i _) k).1

/-- Settles O42: the first DERIVE leaves an idle engine with the empty secret (O40), from which the second is the DERIVE of
O41. -/
theorem secondDeriveUsesTheEmptySecret : Obligations.SecondDeriveUsesTheEmptySecret := by
  intro s t hi hb hl ht
  have hinv := seqInv_engineSteps_of_exec hi hb ht 7000
  have hend := deriveComputesTheKeyMaterial s t hi hb hl ht
  have hsecret : (engineSteps 7000 t).secret = Bytes.zeros 256 := (congrArg State.secret hend :)
  have hlen : (engineSteps 7000 t).secretLen = 0#16 := (congrArg State.secretLen hend :)
  have hidle : busy (engineSteps 7000 t) = false := (congrArg busy hend).trans hb
  obtain ⟨u, hu, _, hkm, herr, _, _⟩ := emptySecretDerives _ hinv hidle hlen
  exact ⟨hsecret, hlen, u, hu, herr, hkm⟩

end Sys2Proof.Machine
end

section
/-! The engine steps a command still needs (R91, R116, R155, R157): each engine step takes one off, and no host step any. -/

namespace Sys2Proof.Machine

theorem busy_of_phase {s t : State} (h : t.phase = s.phase) : busy t = busy s := by simp only [busy, h]

theorem stepsLeft_derive {s : State} (h : s.phase = .derive) :
    stepsLeft s = (14 - s.ksBlk.val) * 500 + (501 - s.ksIter.val) := by simp only [stepsLeft, h]; rfl

theorem stepsLeft_enc {s : State} (h : s.phase = .enc) : stepsLeft s = 10 - s.ciRnd.val := by simp only [stepsLeft, h]

theorem stepsLeft_dec {s : State} (h : s.phase = .dec) : stepsLeft s = s.ciRnd.val + 1 := by simp only [stepsLeft, h]

theorem one_le_stepsLeft {s : State} (hb : busy s = true) : 1 ≤ stepsLeft s := by
  cases hp : s.phase with
  | idle => exact absurd hp (busy_eq_true.1 hb)
  | derive =>
    have hiter : s.ksIter.val < 501 := s.ksIter.isLt
    rw [stepsLeft_derive hp]
    omega
  | enc =>
    have hrnd : s.ciRnd.val < 10 := s.ciRnd.isLt
    rw [stepsLeft_enc hp]
    omega
  | dec => rw [stepsLeft_dec hp]; omega

theorem stepsLeft_engineStep (s : State) : stepsLeft (engineStep s) = stepsLeft s - 1 := by
  cases engine_outcome s with
  | idle hp e => rw [e, stepsLeft_idle hp]
  | deriveIter hp _ _ e =>
    have hblk : (engineStep s).ksBlk.val = s.ksBlk.val := (congrArg (·.ksBlk.val) e :)
    have hiter : (engineStep s).ksIter.val = s.ksIter.val + 1 := (congrArg (·.ksIter.val) e :)
    rw [stepsLeft_derive ((congrArg State.phase e :).trans hp), stepsLeft_derive hp]
    omega
  | deriveBlock hp _ _ _ e =>
    have hblk : (engineStep s).ksBlk.val = s.ksBlk.val + 1 := (congrArg (·.ksBlk.val) e :)
    have hiter : (engineStep s).ksIter.val = 1 := (congrArg (·.ksIter.val) e :)
    rw [stepsLeft_derive ((congrArg State.phase e :).trans hp), stepsLeft_derive hp]
    omega
  | encRound hp _ _ e =>
    have hrnd : (engineStep s).ciRnd.val = s.ciRnd.val + 1 := (congrArg (·.ciRnd.val) e :)
    rw [stepsLeft_enc ((congrArg State.phase e :).trans hp), stepsLeft_enc hp]
    omega
  | decRound hp _ _ e =>
    have hrnd : (engineStep s).ciRnd.val = s.ciRnd.val - 1 := (congrArg (·.ciRnd.val) e :)
    rw [stepsLeft_dec ((congrArg State.phase e :).trans hp), stepsLeft_dec hp]
    omega
  | deriveDone _ hl _ _ _ | encDone _ hl _ _ | decDone _ hl _ _ =>
    obtain ⟨_, hidle, _⟩ := engineStep_completes hl
    rw [stepsLeft_idle hidle, hl]

/-- A step taken by the engine, whether or not a command is in progress. -/
theorem stepsLeft_of_engine_turn {s t : State} (hc : (chooseTurn s).1 = .engine) (ht : step s = .next t) :
    stepsLeft t = stepsLeft s - 1 :=
  (eq_of_hw stepsLeft (step_engine_hw hc ht) fun _ => rfl).trans (stepsLeft_engineStep s)

/-- A step taken by the engine keeps PHASE unless it is the command's last. -/
theorem phase_of_engine_turn {s t : State} (hc : (chooseTurn s).1 = .engine) (hl : stepsLeft s ≠ 1)
    (ht : step s = .next t) : t.phase = s.phase := by
  obtain ⟨_, hp, _⟩ := engineStep_continues hl
  exact (eq_of_hw State.phase (step_engine_hw hc ht) fun _ => rfl).trans hp

theorem stepsLeft_of_reset_turn {s t : State} (hc : (chooseTurn s).1 = .reset) (ht : step s = .next t) : stepsLeft t = 0 := by
  rw [step_reset hc] at ht
  cases ht
  rfl

/-- While a command is in progress the host can write CTRL and STATUS, have its write dropped or change nothing: the sequencer
stands still. -/
theorem sequencer_of_host_turn {s t : State} (hb : busy s = true) (hc : (chooseTurn s).1 = .host)
    (ht : step s = .next t) : stepsLeft t = stepsLeft s ∧ t.phase = s.phase := by
  obtain ⟨u, he, hu⟩ := step_effect ht
  rw [eq_of_hw stepsLeft hu fun _ => rfl, eq_of_hw State.phase hu fun _ => rfl]
  cases he with
  | engine h | reset h => rw [hc] at h; cases h
  | unchanged _ | ctrl _ _ | status _ _ | dropped _ _ _ _ _ => exact ⟨rfl, rfl⟩
  | accepted _ _ _ _ hi | illegal _ _ _ _ hi | secretLen _ _ hi | blockLen _ _ hi | secret _ _ _ _ hi
  | blockIn _ _ _ _ hi => rw [hb] at hi; cases hi

/-- Settles O45: an engine step takes one off the steps left and keeps PHASE unless it was the last; a host step changes
neither. -/
theorem onlyEngineStepsAdvanceACommand : Obligations.OnlyEngineStepsAdvanceACommand := by
  intro s _ hb
  have hpos := one_le_stepsLeft hb
  refine ⟨hpos, fun hc => ?engine, fun t hc ht => sequencer_of_host_turn hb hc ht⟩
  have ht := step_engine hc
  have hleft := stepsLeft_of_engine_turn hc ht
  refine ⟨_, ht, by omega, fun hidle => ?_, fun hl => (step_completes ⟨hc, hl⟩ ht).2.1⟩
  by_contra hl
  exact busy_eq_true.1 hb ((phase_of_engine_turn hc hl ht).symm.trans hidle)

end Sys2Proof.Machine
end

section
/-! What a step leaves of the interleaving (log entries 1 and 2): the choice of the agent alone moves it, and takes one entry
off the schedule. -/

namespace Sys2Proof.Machine

/-- The part of the state that the choice of the next agent reads besides the program and PHASE. -/
def State.agenda (s : State) : List Turn × Nat × Nat := (s.sched, s.waited, s.tick)

theorem unlessBusy_agenda {f : State → State} (hf : ∀ x, (f x).agenda = x.agenda) (s : State) :
    (unlessBusy f s).agenda = s.agenda := by
  cases hb : busy s with
  | true => rw [unlessBusy_busy f hb]; rfl
  | false => rw [unlessBusy_idle f hb, hf]

theorem acceptArm_agenda (i : Instr) (s : State) : (acceptArm i s).agenda = s.agenda := by
  cases accept_outcome i s with
  | completes _ _ e | zeroizes _ e | derives _ _ e | ciphers _ _ _ _ _ _ e => exact (congrArg State.agenda e :)

theorem engineStep_agenda (s : State) : (engineStep s).agenda = s.agenda := by
  obtain ⟨_, hs, hw, hk⟩ := engineStep_agents s
  simp only [State.agenda, hs, hw, hk]

theorem writeReg_agenda {r : Reg} {w : Word} {s t : State} (h : writeReg r w s = .next t) : t.agenda = s.agenda := by
  rw [writeReg_eq] at h
  cases h
  cases r with
  | id | param0 | param1 | blockOut _ | ctrl | status => rfl
  | secretLen => exact unlessBusy_agenda (f := storeSecretLen w) (fun _ => rfl) s
  | blockLen => exact unlessBusy_agenda (f := storeBlockLen w) (fun _ => rfl) s
  | secret k => exact unlessBusy_agenda (f := storeSecret k w) (fun _ => rfl) s
  | blockIn k => exact unlessBusy_agenda (f := storeBlockIn k w) (fun _ => rfl) s
  | cmd =>
    refine unlessBusy_agenda (fun x => ?_) s
    cases decode w with
    | ok i => exact acceptArm_agenda i _
    | error _ => rfl

/-- A host instruction answers a fault, or a next state with the interleaving as before. -/
theorem runHostOp_outcome (op : HostOp) (rest : List HostOp) (s : State) :
    (∃ t, runHostOp op rest s = .next t ∧ t.agenda = s.agenda) ∨ ∃ f, runHostOp op rest s = .fault f := by
  cases op with
  | write off size w =>
    rcases busWrite_cases off size w { s with program := rest } with ⟨_, hf⟩ | ⟨_, t, ht⟩
    · exact .inr ⟨_, hf⟩
    · obtain ⟨r, _, hr⟩ := busWrite_next ht
      exact .inl ⟨t, ht, writeReg_agenda (s := { s with program := rest }) hr⟩
  | read off size =>
    cases hr : busRead off size s with
    | none => exact .inr ⟨.busError off, by simp only [runHostOp, hr]⟩
    | some x => exact .inl ⟨observe x { s with program := rest }, by simp only [runHostOp, hr], rfl⟩
  | check off v =>
    cases hr : busRead off 4 s with
    | none => exact .inr ⟨.busError off, by simp only [runHostOp, hr]⟩
    | some x =>
      by_cases hx : x = v
      · exact .inl ⟨observe x { s with program := rest }, by simp only [runHostOp, hr, if_pos hx], rfl⟩
      · exact .inr ⟨.checkFailed off, by simp only [runHostOp, hr, if_neg hx]⟩
  | poll off mask v =>
    cases hr : busRead off 4 s with
    | none => exact .inr ⟨.busError off, by simp only [runHostOp, hr]⟩
    | some x =>
      by_cases hx : x &&& mask = v
      · exact .inl ⟨observe x { s with program := rest }, by simp only [runHostOp, hr, if_pos hx], rfl⟩
      · exact .inl ⟨observe x s, by simp only [runHostOp, hr, if_neg hx], rfl⟩

/-- No step is refused: it faults, or answers a next state with the interleaving as its choice of the agent left it. -/
theorem step_outcome (s : State) :
    (∃ t, step s = .next t ∧ t.agenda = (chooseTurn s).2.agenda) ∨ ∃ f, step s = .fault f := by
  cases hc : (chooseTurn s).1 with
  | engine => exact .inl ⟨_, step_engine hc, engineStep_agenda _⟩
  | reset => exact .inl ⟨_, step_reset hc, rfl⟩
  | host =>
    rw [step_host hc, hostStep]
    split
    · exact .inl ⟨_, rfl, rfl⟩
    · exact runHostOp_outcome _ _ _

theorem step_agenda {s t : State} (ht : step s = .next t) : t.agenda = (chooseTurn s).2.agenda := by
  rcases step_outcome s with ⟨u, hu, ha⟩ | ⟨f, hf⟩
  · obtain rfl := Host.Outcome.next.inj (ht.symm.trans hu)
    exact ha
  · rw [hf] at ht; cases ht

/-- With no entry in the schedule: the engine, or the host by itself, or the host within its free number of steps. -/
theorem chooseTurn_unscheduled {s : State} (hs : s.sched = []) :
    ((chooseTurn s).1 = .engine ∧ (chooseTurn s).2.sched = []) ∨
    (busy s = false ∧ chooseTurn s = (.host, s)) ∨
    (s.waited < Config.freeHostTurns s.tick ∧ chooseTurn s = (.host, { s with waited := s.waited + 1 })) := by
  by_cases hp : s.program = []
  · rw [chooseTurn_engine hs hp]; exact .inl ⟨rfl, hs⟩
  · cases hb : busy s with
    | false => exact .inr (.inl ⟨rfl, chooseTurn_host hs hp hb⟩)
    | true =>
      rcases chooseTurn_free hs hp hb with h | ⟨_, e⟩
      · exact .inr (.inr h)
      · rw [e]; exact .inl ⟨rfl, hs⟩

theorem chooseTurn_sched_tail (s : State) : (chooseTurn s).2.sched = s.sched.tail := by
  cases hs : s.sched with
  | cons x rest => rw [chooseTurn_sched hs]; rfl
  | nil =>
    rcases chooseTurn_unscheduled hs with ⟨_, h⟩ | ⟨_, e⟩ | ⟨_, e⟩
    · exact h
    · rw [e]; exact hs
    · rw [e]; exact hs

theorem step_sched_tail {s t : State} (ht : step s = .next t) : t.sched = s.sched.tail :=
  (congrArg Prod.fst (step_agenda ht) :).trans (chooseTurn_sched_tail s)

/-- A reset comes only where the schedule names it (log entry 3). -/
theorem reset_mem_of_turn {s : State} (hc : (chooseTurn s).1 = .reset) : .reset ∈ s.sched := by
  cases hs : s.sched with
  | cons x rest => rw [chooseTurn_sched hs] at hc; subst hc; exact List.mem_cons_self
  | nil =>
    rcases chooseTurn_unscheduled hs with ⟨h, _⟩ | ⟨_, e⟩ | ⟨_, e⟩
    · rw [h] at hc; cases hc
    · rw [e] at hc; cases hc
    · rw [e] at hc; cases hc

end Sys2Proof.Machine
end

section
/-! A command in progress along a run without reset (R156, R157). -/

namespace Sys2Proof.Machine

theorem runSteps_of_step {s t : State} (ht : step s = .next t) (k : Nat) : runSteps (k + 1) s = runSteps k t := by
  simp only [runSteps, ht]

theorem runSteps_one (s : State) : runSteps 1 s = step s := by
  rw [runSteps]
  cases step s <;> rfl

/-- The first step of a run that answers a next state. -/
theorem exists_step_of_runSteps {k : Nat} {s t : State} (h : runSteps (k + 1) s = .next t) :
    ∃ u, step s = .next u ∧ runSteps k u = .next t := by
  cases hs : step s with
  | next u => exact ⟨u, rfl, by rwa [runSteps_of_step hs] at h⟩
  | fault f => simp only [runSteps, hs] at h; cases h
  | refused r => simp only [runSteps, hs] at h; cases h

/-- The last step of a run that answers a next state. -/
theorem exists_runSteps_of_runSteps_succ {k : Nat} {s t : State} (h : runSteps (k + 1) s = .next t) :
    ∃ u, runSteps k s = .next u ∧ step u = .next t := by
  induction k generalizing s with
  | zero => exact ⟨s, rfl, by rwa [runSteps_one] at h⟩
  | succ k ih =>
    obtain ⟨v, hv, hrun⟩ := exists_step_of_runSteps h
    obtain ⟨u, hu, hlast⟩ := ih hrun
    exact ⟨u, by rwa [runSteps_of_step hv], hlast⟩

/-- A scheduled run with fewer engine turns than the command needs leaves it in progress, each engine turn one step nearer its
end. -/
theorem inProgress_of_runSteps {turns rest : List Turn} {s t : State} (hb : busy s = true) (hs : s.sched = turns ++ rest)
    (hr : .reset ∉ turns) (hlt : turns.count .engine < stepsLeft s) (ht : runSteps turns.length s = .next t) :
    t.phase = s.phase ∧ stepsLeft t + turns.count .engine = stepsLeft s ∧ t.sched = rest := by
  induction turns generalizing s with
  | nil => cases ht; exact ⟨rfl, rfl, hs⟩
  | cons x turns ih =>
    obtain ⟨u, hu, hrun⟩ := exists_step_of_runSteps ht
    have hc : (chooseTurn s).1 = x := by rw [chooseTurn_sched hs]
    have husched : u.sched = turns ++ rest := by rw [step_sched_tail hu, hs]; rfl
    obtain ⟨hx, hr⟩ := not_or.1 (List.mem_cons.not.1 hr)
    obtain ⟨hp, hleft⟩ : u.phase = s.phase ∧ stepsLeft u + [x].count .engine = stepsLeft s := by
      cases x with
      | host => exact (sequencer_of_host_turn hb hc hu).symm
      | engine =>
        rw [List.count_cons_self] at hlt
        have hleft := stepsLeft_of_engine_turn hc hu
        exact ⟨phase_of_engine_turn hc (by omega) hu, by rw [hleft]; exact Nat.sub_add_cancel (by omega)⟩
      | reset => exact absurd rfl hx
    have hcount : (x :: turns).count .engine = [x].count .engine + turns.count .engine := List.count_append (l₁ := [x])
    obtain ⟨hp', hleft', hsched⟩ := ih ((busy_of_phase hp).trans hb) husched hr (by omega) hrun
    exact ⟨hp'.trans hp, by omega, hsched⟩

/-- Settles O46: the run before the last engine turn leaves one step, which the schedule then gives to the engine. -/
theorem commandCompletesUnderAnyInterleaving : Obligations.CommandCompletesUnderAnyInterleaving := by
  refine ⟨fun turns rest s t _ hb hs hr hlt ht => inProgress_of_runSteps hb hs hr hlt ht,
    fun turns rest s t _ hb hs hr hcount ht => ?_⟩
  obtain ⟨u, hu, hlast⟩ := exists_runSteps_of_runSteps_succ ht
  obtain ⟨_, hleft, hsched⟩ := inProgress_of_runSteps hb hs hr (by omega) hu
  have hn : completesNext u := ⟨by rw [chooseTurn_sched hsched], by omega⟩
  obtain ⟨hdone, hidle, herr⟩ := step_completes hn hlast
  exact ⟨hidle, herr, hdone⟩

end Sys2Proof.Machine
end

section
/-! Fairness (R156): while a command is in progress the host takes finitely many steps before another agent moves, so a
command, and a POLL for its end, comes to its end. -/

namespace Sys2Proof.Machine

/-- A bound on the host's steps before another agent moves, while a command is in progress: the schedule's entries, and what is
left of the free number (log entries 1 and 2). -/
def hostTurnsLeft (s : State) : Nat := s.sched.length + (Config.freeHostTurns s.tick - s.waited)

theorem hostTurnsLeft_of_agenda {s t : State} (h : t.agenda = s.agenda) : hostTurnsLeft t = hostTurnsLeft s :=
  congrArg (fun a : List Turn × Nat × Nat => a.1.length + (Config.freeHostTurns a.2.2 - a.2.1)) h

/-- A scheduled turn, and a host turn while a command is in progress, use up one of the turns. -/
theorem hostTurnsLeft_step {s t : State} (h : s.sched ≠ [] ∨ (busy s = true ∧ (chooseTurn s).1 = .host))
    (ht : step s = .next t) : hostTurnsLeft t < hostTurnsLeft s := by
  rw [hostTurnsLeft_of_agenda (step_agenda ht)]
  cases hs : s.sched with
  | cons x rest =>
    rw [chooseTurn_sched hs]
    simp only [hostTurnsLeft, hs, List.length_cons]
    omega
  | nil =>
    obtain hne | ⟨hb, hc⟩ := h
    · exact absurd hs hne
    · rcases chooseTurn_unscheduled hs with ⟨he, _⟩ | ⟨hidle, _⟩ | ⟨hw, e⟩
      · rw [hc] at he; cases he
      · rw [hb] at hidle; cases hidle
      · rw [e]
        simp only [hostTurnsLeft, hs, List.length_nil]
        omega

/-- While a command is in progress an agent other than the host comes to move. -/
theorem exists_other_turn {r : Nat → State} (hr : Execution r) {k : Nat} (hb : busy (r k) = true) :
    ∃ j, k ≤ j ∧ (chooseTurn (r j)).1 ≠ .host := by
  by_cases hc : (chooseTurn (r k)).1 = .host
  · obtain ⟨_, hp⟩ := sequencer_of_host_turn hb hc (hr k)
    have hless := hostTurnsLeft_step (.inr ⟨hb, hc⟩) (hr k)
    obtain ⟨j, hj, hother⟩ := exists_other_turn hr (k := k + 1) ((busy_of_phase hp).trans hb)
    exact ⟨j, by omega, hother⟩
  · exact ⟨k, Nat.le_refl k, hc⟩
termination_by hostTurnsLeft (r k)

/-- Settles O55: the other agent that comes to move is the engine, for after a reset no command is in progress. -/
theorem everyExecutionIsWeaklyFair : Obligations.EveryExecutionIsWeaklyFair := by
  refine fun r hr => ⟨fun k hen => ?_, fun k hen => exists_other_turn hr (busy_eq_true.2 hen)⟩
  obtain ⟨j, hj, hother⟩ := exists_other_turn hr (busy_eq_true.2 (hen k (Nat.le_refl k)))
  cases hc : (chooseTurn (r j)).1 with
  | engine => exact ⟨j, hj, hc⟩
  | host => exact absurd hc hother
  | reset =>
    have hnext := (hr j).symm.trans (step_reset hc)
    exact absurd (congrArg State.phase (Host.Outcome.next.inj hnext) :) (hen (j + 1) (by omega))

/-- While the host has something to do, every step but the host's to an idle engine is progress: fewer engine steps are left,
or as many and fewer host turns. -/
theorem step_nearer {s t : State} (h : busy s = true ∨ ((chooseTurn s).1 ≠ .host ∧ s.program ≠ []))
    (ht : step s = .next t) : stepsLeft t < stepsLeft s ∨ (stepsLeft t = stepsLeft s ∧ hostTurnsLeft t < hostTurnsLeft s) := by
  cases hb : busy s with
  | true =>
    have hpos := one_le_stepsLeft hb
    cases hc : (chooseTurn s).1 with
    | engine => have := stepsLeft_of_engine_turn hc ht; exact .inl (by omega)
    | reset => exact .inl (by rw [stepsLeft_of_reset_turn hc ht]; exact hpos)
    | host => exact .inr ⟨(sequencer_of_host_turn hb hc ht).1, hostTurnsLeft_step (.inr ⟨hb, hc⟩) ht⟩
  | false =>
    obtain ⟨hc, hp⟩ := h.resolve_left (by simp [hb])
    have hs : s.sched ≠ [] := fun hs => hc (by rw [chooseTurn_host hs hp hb])
    have hzero : stepsLeft s = 0 := stepsLeft_idle (busy_eq_false.1 hb)
    refine .inr ⟨?_, hostTurnsLeft_step (.inl hs) ht⟩
    cases hc' : (chooseTurn s).1 with
    | engine => rw [stepsLeft_of_engine_turn hc' ht, hzero]
    | reset => rw [stepsLeft_of_reset_turn hc' ht, hzero]
    | host => exact absurd hc' hc

/-- A command in progress comes to its last step, or the host's program faults, by induction on what is left. -/
theorem exists_lastStep (s : State) (hb : busy s = true) (hr : .reset ∉ s.sched) :
    ∃ k, (∃ t, runSteps k s = .next t ∧ t.phase = s.phase ∧ completesNext t) ∨ ∃ f, runSteps k s = .fault f := by
  by_cases hn : completesNext s
  · exact ⟨0, .inl ⟨s, rfl, rfl, hn⟩⟩
  rcases step_outcome s with ⟨t, ht, _⟩ | ⟨f, hf⟩
  · have hphase : t.phase = s.phase := by
      cases hc : (chooseTurn s).1 with
      | engine => exact phase_of_engine_turn hc (fun hl => hn ⟨hc, hl⟩) ht
      | host => exact (sequencer_of_host_turn hb hc ht).2
      | reset => exact absurd (reset_mem_of_turn hc) hr
    have hsched : .reset ∉ t.sched := by rw [step_sched_tail ht]; exact fun hm => hr (List.mem_of_mem_tail hm)
    have hnear := step_nearer (.inl hb) ht
    obtain ⟨k, hk⟩ := exists_lastStep t ((busy_of_phase hphase).trans hb) hsched
    exact ⟨k + 1, by rwa [runSteps_of_step ht, ← hphase]⟩
  · exact ⟨1, .inr ⟨f, (runSteps_one s).trans hf⟩⟩
termination_by (stepsLeft s, hostTurnsLeft s)
decreasing_by exact Prod.lex_def.2 hnear

/-- Settles O56: the engine steps left, and between two of them the host's turns left, are finite in number. -/
theorem everyCommandCompletes : Obligations.EveryCommandCompletes :=
  fun s _ hb hr => exists_lastStep s hb hr

theorem statusWord_and_busyMask (s : State) : statusWord s &&& 0x00000001#32 = 0x00000000#32 ↔ busy s = false := by
  have hbit : (statusWord s).getLsbD 0 = busy s := getLsbD_statusWord s (by omega)
  constructor
  · intro h
    rw [← hbit]
    simpa using congrArg (·.getLsbD 0) h
  · intro hb
    refine and_eq_zero_of_mask fun j hj hm => ?_
    obtain rfl : j = 0 := by simpa using hm
    rw [hbit, hb]

/-- A host step at WAIT reads STATUS, and moves past WAIT exactly if BUSY is 0 (R69). -/
theorem hostStep_wait {s : State} {rest : List HostOp} (hp : s.program = asmWait :: rest) :
    hostStep s = .next (observe (statusWord s) { s with program := if busy s = false then rest else asmWait :: rest }) := by
  calc hostStep s
      = hostStep { s with program := asmWait :: rest } := by rw [← hp]
    _ = _ := hostStep_poll (busRead_status s) 0x00000001#32 0x00000000#32 rest
    _ = _ := by simp only [statusWord_and_busyMask]; rfl

/-- A step with WAIT at the head of the program answers a next state: WAIT passed and BUSY 0, or WAIT still there. -/
theorem step_wait {s : State} {rest : List HostOp} (hp : s.program = asmWait :: rest) :
    ∃ t, step s = .next t ∧ ((t.program = rest ∧ busy t = false) ∨
      (t.program = asmWait :: rest ∧ (busy s = true ∨ (chooseTurn s).1 ≠ .host))) := by
  have hp' : (chooseTurn s).2.program = asmWait :: rest := (chooseTurn_program s).trans hp
  cases hc : (chooseTurn s).1 with
  | engine => exact ⟨_, step_engine hc, .inr ⟨(engineStep_agents _).1.trans hp', .inr nofun⟩⟩
  | reset => exact ⟨_, step_reset hc, .inr ⟨hp', .inr nofun⟩⟩
  | host =>
    have hb' : busy (chooseTurn s).2 = busy s := busy_of_hw (chooseTurn_hw s)
    refine ⟨_, (step_host hc).trans (hostStep_wait hp'), ?_⟩
    cases hb : busy s with
    | false => exact .inl ⟨if_pos (hb'.trans hb), hb'.trans hb⟩
    | true => exact .inr ⟨if_neg (by simp [hb', hb]), .inl rfl⟩

/-- WAIT is passed with BUSY 0, by induction on what is left. -/
theorem exists_waitPassed (s : State) {rest : List HostOp} (hp : s.program = asmWait :: rest) :
    ∃ k t, runSteps k s = .next t ∧ t.program = rest ∧ busy t = false := by
  obtain ⟨t, ht, hpassed | ⟨hwait, hturn⟩⟩ := step_wait hp
  · exact ⟨1, t, (runSteps_one s).trans ht, hpassed⟩
  · have hnear := step_nearer (hturn.imp_right fun hc => ⟨hc, by rw [hp]; nofun⟩) ht
    obtain ⟨k, u, hu⟩ := exists_waitPassed t hwait
    exact ⟨k + 1, u, by rwa [runSteps_of_step ht]⟩
termination_by (stepsLeft s, hostTurnsLeft s)
decreasing_by exact Prod.lex_def.2 hnear

/-- Settles O57: the host stays at WAIT, which never faults, until the command in progress has completed or a reset has ended
it. -/
theorem pollForIdleEnds : Obligations.PollForIdleEnds :=
  fun s _ _ hp => exists_waitPassed s hp

end Sys2Proof.Machine
end
